-- ==== Sys2Proof/Word.lean ====
section
/-! DEFINITION. The word types of the block: a byte register (10_state.md R21), the 40-bit command
word (30_encoding.md R60) and its 32-bit scalar operand (30_encoding.md R64, 00_scope.md R5). -/

namespace Sys2Proof

/-- One byte register `storage[j]`: 8 bits, bit 0 the least significant (00_scope.md R6). -/
abbrev Byte := BitVec 8

/-- The port `cmd_word`: 40 bits (`CW`, 00_scope.md R5; 30_encoding.md R60). -/
abbrev CmdWord := BitVec 40

/-- The scalar operand `arg`: 32 bits (`AW`, 00_scope.md R5), used zero-extended (30_encoding.md R64). -/
abbrev Arg := BitVec 32

end Sys2Proof
end

