-- ==== Sys2Proof/Syntax.lean ====
section
/-! DEFINITION. The five commands of command set 1 (30_encoding.md R66), one constructor per row of
opcode_table.json, and the pair that arrives at the command port (30_encoding.md R60). -/

namespace Sys2Proof

/-- The command set, complete (30_encoding.md R66).  A scalar operand is the 32-bit field `arg`. -/
inductive Instr where
  /-- `LOAD bitLen, data` (40_buffer_control.md R80); `data` is `cmd_data` read as one unsigned
  integer, byte `j` on bits `8*j+7 .. 8*j` (20_memory.md R42).  Log entry 6. -/
  | load (bitLen : Arg) (data : Nat)
  /-- `GETBIT i` (40_buffer_control.md R81). -/
  | getbit (i : Arg)
  /-- `SETBIT i, v` (40_buffer_control.md R82); `v` is bit 32 of the word (30_encoding.md R63). -/
  | setbit (i : Arg) (v : Bool)
  /-- `ROTL k` (41_rotation.md R90). -/
  | rotl (k : Arg)
  /-- `ROTR k` (41_rotation.md R91). -/
  | rotr (k : Arg)
  deriving DecidableEq, Repr

/-- What the host presents at the command port: the pair `(cmd_word, cmd_data)` of
30_encoding.md R60, `cmd_data` as an unsigned integer (20_memory.md R42). -/
structure Command where
  word : CmdWord
  data : Nat
  deriving DecidableEq, Repr

end Sys2Proof
end

