-- ==== Sys2Proof/Decode.lean ====
section
/-! DEFINITION. The decoder of the command port, total on all `2^40` words (30_encoding.md R60, R66,
R67, R72), and the encoder written from the same table. -/

namespace Sys2Proof

/-- `op`, bits 39..36 (30_encoding.md R60, R61). -/
def opField (w : CmdWord) : BitVec 4 := w.extractLsb' 36 4

/-- `rsv`, bits 35..33 (30_encoding.md R60, R62). -/
def rsvField (w : CmdWord) : BitVec 3 := w.extractLsb' 33 3

/-- `v`, bit 32 (30_encoding.md R60, R63). -/
def vField (w : CmdWord) : Bool := w.getLsbD 32

/-- `arg`, bits 31..0, all significant (30_encoding.md R60, R64). -/
def argField (w : CmdWord) : Arg := w.extractLsb' 0 32

/-- Opcode values of 30_encoding.md R66 (D4). -/
def opLoad : BitVec 4 := 1
/-- See `opLoad`. -/
def opGetbit : BitVec 4 := 2
/-- See `opLoad`. -/
def opSetbit : BitVec 4 := 3
/-- See `opLoad`. -/
def opRotl : BitVec 4 := 4
/-- See `opLoad`. -/
def opRotr : BitVec 4 := 5

/-- Why a word is illegal (30_encoding.md R67).  The block answers all three alike. -/
inductive Illegal where
  /-- `rsv != 000` (R62). -/
  | reservedBits
  /-- `v = 1` and `op != 0x3` (R63). -/
  | valueBit
  /-- `op = 0x0` or `op` in `0x6 .. 0xF`. -/
  | unusedOpcode
  deriving DecidableEq, Repr

/-- What the decoder makes of a command: one of the five, or an illegal word, with its reason. -/
inductive Decoded where
  | instr (i : Instr)
  | illegal (why : Illegal)
  deriving DecidableEq, Repr

/-- The decoder: first the word is checked by `op`, `rsv` and `v` alone, then `arg` (and for LOAD
`cmd_data`) is taken as the operand (30_encoding.md R67, R72).  Every other command ignores
`cmd_data` (R65). -/
def decode (c : Command) : Decoded :=
  if rsvField c.word ≠ 0 then .illegal .reservedBits
  else if opField c.word = opSetbit then .instr (.setbit (argField c.word) (vField c.word))
  else if vField c.word then .illegal .valueBit
  else if opField c.word = opLoad then .instr (.load (argField c.word) c.data)
  else if opField c.word = opGetbit then .instr (.getbit (argField c.word))
  else if opField c.word = opRotl then .instr (.rotl (argField c.word))
  else if opField c.word = opRotr then .instr (.rotr (argField c.word))
  else .illegal .unusedOpcode

/-- A command word from its fields, `rsv = 000` (30_encoding.md R60). -/
def wordOf (op : BitVec 4) (v : Bool) (arg : Arg) : CmdWord :=
  op ++ 0#3 ++ BitVec.ofBool v ++ arg

/-- The encoder (30_encoding.md R66).  A command that ignores `cmd_data` is encoded with zeros there
(R65 leaves it to the host: DESIGN CHOICE, log entry 8, safe). -/
def encode : Instr → Command
  | .load bitLen data => ⟨wordOf opLoad false bitLen, data⟩
  | .getbit i => ⟨wordOf opGetbit false i, 0⟩
  | .setbit i v => ⟨wordOf opSetbit v i, 0⟩
  | .rotl k => ⟨wordOf opRotl false k, 0⟩
  | .rotr k => ⟨wordOf opRotr false k, 0⟩

/-- The command an opcode-table row's bits stand for: bits 39..0 are `cmd_word`, bits above 39 are
`cmd_data`, and every bit at or above `nbits` is 0.  Log entry 9. -/
def tableCommand (nbits w : Nat) : Command :=
  ⟨BitVec.ofNat 40 (w % 2 ^ nbits), (w % 2 ^ nbits) / 2 ^ 40⟩

/-- The instruction the decoder reads from a table row's bits, `none` for an illegal word. -/
def decodeTableWord (nbits w : Nat) : Option Instr :=
  match decode (tableCommand nbits w) with
  | .instr i => some i
  | .illegal _ => none

end Sys2Proof
end

