-- ==== Sys2Proof/Config.lean ====
section
/-! DEFINITION. What an implementation fixes and the spec leaves open: the capacity `N` of the
instance that `State.reset` describes (00_scope.md R4, 92_eei_decisions.md D20) and the latency of a
command (70_reset_and_hazards.md R156, D18). Both are opaque: nothing can prove a value of either. -/

namespace Sys2Proof

/-- The largest capacity in bytes, `2^29 - 1` (00_scope.md R4, D5). -/
abbrev maxCapacityBytes : Nat := 536870911

/-- The index of an instance's last byte register, `N - 1`.  The type says `1 <= N <= 2^29 - 1`
(00_scope.md R4): an instance outside the range, which 93_implementation_defined.md U9 refuses,
cannot be written.  DESIGN CHOICE, log entry 1, safe. -/
abbrev TopByte := Fin maxCapacityBytes

/-- `N - 1` for the instance whose reset state is `State.reset`.  The spec fixes no `N`
(91_not_in_source.md N7: "Do not assume any particular `N`"), so it is opaque.
DESIGN CHOICE, log entry 1, safe. -/
opaque Config.topByte : TopByte

/-- `LAT(cmd, state) - 1`: the cycles beyond the first that a command takes from its acceptance to
its response, in the instance (first argument), the state (storage, length) and for the command
(word, data) given.  70_reset_and_hazards.md R156 fixes no value, so it is opaque; only
Machine/Ports.lean uses it.  DESIGN CHOICE, log entry 7, safe. -/
opaque Config.latency (topByte : TopByte) (storage : List (Nat × Byte)) (usedBitLen : Nat)
    (word : CmdWord) (data : Nat) : Nat

end Sys2Proof
end

