-- ==== Sys2Proof/Machine/State.lean ====
section
/-! DEFINITION. The state of the block (10_state.md R20 to R22, R31), with the host's side of the
ports beside it, the reasons a step can stop, and the state after reset. -/

namespace Sys2Proof.Machine

/-- The byte registers that are not zero, as (index, byte) pairs with strictly rising indices; a
register that is not listed holds 0x00, its reset value (10_state.md R31).  Log entry 2. -/
abbrev Memory := List Host.Cell

/-- The outcome of a command (30_encoding.md R68). -/
inductive Status where
  | ok
  | capacityExceeded
  | indexOutOfRange
  | illegalCommand
  deriving DecidableEq, Repr

/-- One response: `(rsp_status, rsp_bit)` (30_encoding.md R68). -/
structure Response where
  status : Status
  bit : Bool
  deriving DecidableEq, Repr

/-- What the host presents at the block's input ports for one step: `rst`, and a command when
`cmd_valid = 1` (10_state.md R29).  With `rst = true` a command beside it is one that reset keeps
from being accepted, or cuts off before its response (70_reset_and_hazards.md R151).  Log entry 5. -/
structure PortSample where
  rst : Bool
  cmd : Option Command
  deriving DecidableEq, Repr

/-- The machine.  `storage` and `usedBitLen` are the block's whole architectural state
(10_state.md R20); `topByte` is the build parameter; `rsp` and `inputs` are the host's side of the
ports, the model's own (log entries 1, 3 and 4). -/
structure State where
  /-- `N - 1`, a constant of the instance that no step writes (00_scope.md R4, 10_state.md R23). -/
  topByte : TopByte
  /-- The used-bit-length register (10_state.md R22). -/
  usedBitLen : Nat
  /-- The byte registers `storage[0] .. storage[N-1]` (10_state.md R21). -/
  storage : Memory
  /-- The response given by the last step; `none` says `rsp_valid = 0` (10_state.md R29, R31). -/
  rsp : Option Response
  /-- What the host presents from here on, the next sample first (10_state.md R32,
  70_reset_and_hazards.md R158). -/
  inputs : List PortSample
  deriving DecidableEq, Repr

/-- The reasons a step stops with a fault: there are none.  93_implementation_defined.md: "There is
no behaviour in this block that a model should treat as `fault` or `stuck`"; the errors of
60_exceptions.md R131 to R133 are responses (R130). -/
inductive Fault where
  deriving DecidableEq, Repr

/-- The reasons a step gives no meaning.  No step of this model answers one. -/
inductive Refusal where
  /-- Raised by an arm of `exec` for an instruction without a meaning; no arm raises it.  Safe. -/
  | notModelled (mnemonic : String)
  deriving DecidableEq, Repr

/-- The capacity `N` in bytes (00_scope.md R4). -/
def State.capacityBytes (s : State) : Nat := s.topByte.val + 1

/-- The capacity `CAP = 8*N` in bits (00_scope.md R5). -/
def State.capacityBits (s : State) : Nat := 8 * s.capacityBytes

/-- The state right after reset of an instance whose last byte register is `top`: the empty buffer,
no response, nothing presented (10_state.md R31, 70_reset_and_hazards.md R150). -/
def State.resetOf (top : TopByte) : State :=
  { topByte := top, usedBitLen := 0, storage := [], rsp := none, inputs := [] }

/-- The state right after reset of the instance that `Config.topByte` names (10_state.md R31). -/
def State.reset : State := State.resetOf Config.topByte

end Sys2Proof.Machine
end

