-- ==== Sys2Proof/Machine/Ops.lean ====
section
/-! DEFINITION. The named operations over the block's storage: byte registers, the integer view, the
primitives of 00_scope.md R8 and R9, the response, the error (the one way a command fails), reset,
and the observation ports. -/

namespace Sys2Proof.Machine

/-! ### Byte registers -/

/-- Read of `storage[x]`; an unlisted register holds 0x00. -/
def Memory.read : Memory → Nat → Byte
  | [], _ => 0
  | (a, b) :: m, x => if x = a then b else Memory.read m x

/-- Write of `storage[x]`, keeping the canonical form. -/
def Memory.write : Memory → Nat → Byte → Memory
  | [], x, v => if v = 0 then [] else [(x, v)]
  | (a, b) :: m, x, v =>
    if x < a then (if v = 0 then (a, b) :: m else (x, v) :: (a, b) :: m)
    else if x = a then (if v = 0 then m else (a, v) :: m)
    else (a, b) :: Memory.write m x v

/-- Canonical form from index `lo` up: strictly rising indices, no zero byte listed. -/
def Memory.wfFrom : Nat → Memory → Bool
  | _, [] => true
  | lo, (a, b) :: m => decide (lo ≤ a) && b != 0 && Memory.wfFrom (a + 1) m

/-- The canonical form of the storage list. -/
def Memory.wf (m : Memory) : Bool := Memory.wfFrom 0 m

/-! ### The integer view -/

/-- `S`, the sum of `storage[j] * 2^(8*j)` (00_scope.md R7). -/
def Memory.toNat : Memory → Nat
  | [] => 0
  | (a, b) :: m => b.toNat * 2 ^ (8 * a) + Memory.toNat m

/-- The little-endian bytes of `v` in at most `fuel` registers from index `a` up. -/
def Memory.ofNatFrom : (fuel a v : Nat) → Memory
  | 0, _, _ => []
  | fuel + 1, a, v =>
    if v = 0 then []
    else if BitVec.ofNat 8 v = 0 then Memory.ofNatFrom fuel (a + 1) (v / 256)
    else (a, BitVec.ofNat 8 v) :: Memory.ofNatFrom fuel (a + 1) (v / 256)

/-- `n` byte registers that hold the integer `v`: `storage[j] = (v div 2^(8*j)) mod 256`
(00_scope.md R7). -/
def Memory.ofNat (n v : Nat) : Memory := Memory.ofNatFrom n 0 v

/-- `S`, the integer view of the buffer (00_scope.md R7). -/
def State.view (s : State) : Nat := Memory.toNat s.storage

/-- `S <- v` (00_scope.md R10). -/
def State.setView (v : Nat) (s : State) : State :=
  { s with storage := Memory.ofNat s.capacityBytes v }

/-! ### Primitives -/

/-- `mask(S, L) = S mod 2^L` (00_scope.md R8). -/
def mask (S L : Nat) : Nat := S % 2 ^ L

/-- `ring_rotl(S, L, k)`, the closed form of 00_scope.md R9. -/
def ringRotl (S L k : Nat) : Nat :=
  if L = 0 then S else (S * 2 ^ (k % L)) % 2 ^ L + S / 2 ^ (L - k % L)

/-- The effect of `ROTL k` on the buffer (41_rotation.md R90), for any natural count. -/
def State.rotateLeft (k : Nat) (s : State) : State :=
  if s.usedBitLen = 0 then s
  else s.setView (mask (ringRotl s.view s.usedBitLen k) s.usedBitLen)

/-! ### Ending a command, and reset -/

/-- `respond(status, b)`: end the command with this response (00_scope.md R10). -/
def respond (status : Status) (b : Bool) (s : State) : State :=
  { s with rsp := some ⟨status, b⟩ }

/-- `raise <Error>`: end the command at once with the error's status, `rsp_bit = 0` and the state
exactly as it was (00_scope.md R10, 60_exceptions.md R130, R137).  There is no trap, no handler and
no saved state, so there is no return either (R138). -/
def raise (e : Status) (s : State) : State := respond e false s

/-- The reset event: the empty buffer whatever the state was, and no response
(70_reset_and_hazards.md R150, R151).  The instance and what the host presents next stay. -/
def resetBlock (s : State) : State :=
  { s with usedBitLen := 0, storage := [], rsp := none }

/-- A step in which the host presents nothing: the buffer stays and no response is given
(60_exceptions.md R140: "when idle the block simply waits for `cmd_valid`").  Log entry 4. -/
def waitIdle (s : State) : State := { s with rsp := none }

/-! ### Observation ports, sampled between steps, when the block is idle (10_state.md R30) -/

/-- `buf_data` (10_state.md R30): the integer view `S` (20_memory.md R42). -/
def State.bufData (s : State) : Nat := s.view

/-- `buf_len` (10_state.md R30). -/
def State.bufLen (s : State) : Nat := s.usedBitLen

/-- `LW`, the width of `usedBitLen` and of `buf_len`: the least width that holds `0 .. 8*n`
(00_scope.md R5, `ceil(log2(8*n + 1))`). -/
def lengthWidth (n : Nat) : Nat := Nat.log2 (8 * n) + 1

/-- `cap_bits[31:0]`, hardwired to `8*N` (10_state.md R23). -/
def State.capBits (s : State) : BitVec 32 := BitVec.ofNat 32 s.capacityBits

end Sys2Proof.Machine
end

