-- ==== Sys2Proof/Machine/Flags.lean ====
section
/-! DEFINITION. The block has no flags and no condition codes (10_state.md R28); the outcome of a
command is its response.  Here are the two tests that decide it and the codes that report it. -/

namespace Sys2Proof.Machine

/-- The test of LOAD: `bitLen > 8*N`, over natural numbers (40_buffer_control.md R80,
60_exceptions.md R131, 41_rotation.md R92). -/
abbrev exceedsCapacity (bitLen : Nat) (s : State) : Prop := s.capacityBits < bitLen

/-- The test of GETBIT and SETBIT: `i >= usedBitLen`, over natural numbers (40_buffer_control.md R81,
R82, 60_exceptions.md R132, 41_rotation.md R92). -/
abbrev outOfRange (i : Nat) (s : State) : Prop := s.usedBitLen ≤ i

/-- The two bits of `rsp_status` (30_encoding.md R68). -/
def statusCode : Status → BitVec 2
  | .ok => 0
  | .capacityExceeded => 1
  | .indexOutOfRange => 2
  | .illegalCommand => 3

end Sys2Proof.Machine
end

