-- ==== Sys2Proof/Machine/Operands.lean ====
section
/-! DEFINITION. The operand forms: the zero-extended scalar (30_encoding.md R64) and the addressed
bit (40_buffer_control.md R83). -/

namespace Sys2Proof.Machine

/-- `zext(arg)`: the scalar operand as a natural number `0 .. 2^32 - 1`, never truncated, scaled or
sign-extended (30_encoding.md R64). -/
def scalar (arg : Arg) : Nat := arg.toNat

/-- The byte register that holds bit `i` (20_memory.md R41, 40_buffer_control.md R83). -/
def byteIndex (i : Nat) : Nat := i / 8

/-- The position of bit `i` in its byte, 0 the least significant (20_memory.md R41, R83). -/
def bitPosition (i : Nat) : Nat := i % 8

/-- The byte with bit `p` made `v` and every other bit kept (40_buffer_control.md R82). -/
def putBit (b : Byte) (p : Nat) (v : Bool) : Byte :=
  if v then b ||| (1#8 <<< p) else b &&& ~~~(1#8 <<< p)

/-- `MemRead(i, 1)`: bit `i mod 8` of `storage[i div 8]` (40_buffer_control.md R81). -/
def readBit (m : Memory) (i : Nat) : Bool :=
  (Memory.read m (byteIndex i)).getLsbD (bitPosition i)

/-- `MemWrite(i, 1, v)`: bit `i mod 8` of `storage[i div 8]` becomes `v`, every other bit is kept
(40_buffer_control.md R82). -/
def writeBit (m : Memory) (i : Nat) (v : Bool) : Memory :=
  Memory.write m (byteIndex i) (putBit (Memory.read m (byteIndex i)) (bitPosition i) v)

end Sys2Proof.Machine
end

