-- ==== Sys2Proof/Machine/Buffer.lean ====
section
/-! DEFINITION. The buffer control family: LOAD, GETBIT, SETBIT (40_buffer_control.md). -/

namespace Sys2Proof.Machine

/-- `LOAD bitLen, data` (40_buffer_control.md R80). -/
def execLoad (bitLen : Arg) (data : Nat) (s : State) : Host.Outcome State Fault Refusal :=
  .next <|
    if exceedsCapacity (scalar bitLen) s then raise .capacityExceeded s
    else
      respond .ok false
        (State.setView (mask data (scalar bitLen)) { s with usedBitLen := scalar bitLen })

/-- `GETBIT i` (40_buffer_control.md R81). -/
def execGetbit (i : Arg) (s : State) : Host.Outcome State Fault Refusal :=
  .next <|
    if outOfRange (scalar i) s then raise .indexOutOfRange s
    else respond .ok (readBit s.storage (scalar i)) s

/-- `SETBIT i, v` (40_buffer_control.md R82). -/
def execSetbit (i : Arg) (v : Bool) (s : State) : Host.Outcome State Fault Refusal :=
  .next <|
    if outOfRange (scalar i) s then raise .indexOutOfRange s
    else respond .ok false { s with storage := writeBit s.storage (scalar i) v }

end Sys2Proof.Machine
end

