-- ==== Sys2Proof/Machine/Rotate.lean ====
section
/-! DEFINITION. The rotation family: ROTL, ROTR (41_rotation.md). -/

namespace Sys2Proof.Machine

/-- `ROTL k` (41_rotation.md R90). -/
def execRotl (k : Arg) (s : State) : Host.Outcome State Fault Refusal :=
  .next (respond .ok false (s.rotateLeft (scalar k)))

/-- `ROTR k`: nothing when the ring is empty, else `ROTL m` with `m = L - (k mod L)`
(41_rotation.md R91). -/
def execRotr (k : Arg) (s : State) : Host.Outcome State Fault Refusal :=
  .next <|
    respond .ok false <|
      if s.usedBitLen = 0 then s
      else s.rotateLeft (s.usedBitLen - scalar k % s.usedBitLen)

end Sys2Proof.Machine
end

