-- ==== Sys2Proof/Machine/Dispatch.lean ====
section
/-! DEFINITION. One arm per command of 30_encoding.md R66. -/

namespace Sys2Proof.Machine

def exec (i : Instr) (s : State) : Host.Outcome State Fault Refusal :=
  match i with
  | .load bitLen data => Sys2Proof.Machine.execLoad bitLen data s
  | .getbit idx => Sys2Proof.Machine.execGetbit idx s
  | .setbit idx v => Sys2Proof.Machine.execSetbit idx v s
  | .rotl k => Sys2Proof.Machine.execRotl k s
  | .rotr k => Sys2Proof.Machine.execRotr k s

end Sys2Proof.Machine
end

