-- ==== Sys2Proof/Machine/Issue.lean ====
section
/-! DEFINITION. What an accepted command does, legal or not, what one sample of the input ports does,
and how a command is presented.  Step.lean only calls these. -/

namespace Sys2Proof.Machine

/-- An illegal word ends with `IllegalCommand` at decode, whatever its reason, and its operands are
not looked at (30_encoding.md R67, R72; 60_exceptions.md R133). -/
def execIllegal (s : State) : Host.Outcome State Fault Refusal := .next (raise .illegalCommand s)

/-- One accepted command, from decode to response (30_encoding.md R72). -/
def issue (c : Command) (s : State) : Host.Outcome State Fault Refusal :=
  match decode c with
  | .instr i => exec i s
  | .illegal _ => execIllegal s

/-- One sample of the input ports.  Reset wins over a command presented with it or still in progress
(70_reset_and_hazards.md R151, 60_exceptions.md R136); with `cmd_valid = 0` the block waits. -/
def takeSample (p : PortSample) (s : State) : Host.Outcome State Fault Refusal :=
  if p.rst then .next (resetBlock s)
  else
    match p.cmd with
    | some c => issue c s
    | none => .next (waitIdle s)

/-- The sample in which the host presents `c` and nothing else. -/
def presents (c : Command) : PortSample := { rst := false, cmd := some c }

/-- `s` with `c` presented at the command port before anything else the host will present. -/
def placeCommand (c : Command) (s : State) : State :=
  { s with inputs := presents c :: s.inputs }

end Sys2Proof.Machine
end

