-- ==== Sys2Proof/Machine/Step.lean ====
section
/-! DEFINITION. One step: the next sample of the input ports is taken, and the command in it, if any,
runs to completion (00_scope.md R11, 70_reset_and_hazards.md R153).  When the host presents nothing
more, the block waits. -/

namespace Sys2Proof.Machine

def step (s : State) : Host.Outcome State Fault Refusal :=
  match s.inputs with
  | [] => .next (waitIdle s)
  | p :: rest => takeSample p { s with inputs := rest }

/-- `s` with a table row's command at the head of what the host presents, so that the next step takes
and runs exactly it (log entries 3 and 9). -/
def State.withFetchWord (s : State) (nbits w : Nat) : State :=
  placeCommand (tableCommand nbits w) s

end Sys2Proof.Machine
end

