-- ==== Sys2Proof/Machine/HostSeq.lean ====
section
/-! DEFINITION. Runs of commands (70_reset_and_hazards.md R158) and the host's pseudo-instructions
(42_host_sequences.md, 30_encoding.md R71).  Nothing here adds state, a port or an encoding to the
block (R110). -/

namespace Sys2Proof.Machine

/-- What a run puts out: its responses in command order and the final state (R158). -/
structure RunOutput where
  final : State
  responses : List Response
  deriving DecidableEq, Repr

/-- A finite list of commands, executed in order from a start state (R158); `none` if one of them
stops, which none does. -/
def runCommands : List Command → State → Option RunOutput
  | [], s => some ⟨s, []⟩
  | c :: cs, s =>
    match issue c s with
    | .next t => (runCommands cs t).map fun r => { r with responses := t.rsp.toList ++ r.responses }
    | .fault _ => none
    | .refused _ => none

/-- A list of instructions as the words a host sends for them. -/
def runInstrs (is : List Instr) (s : State) : Option RunOutput := runCommands (is.map encode) s

/-- Byte `j` of the list on lane `j` of `cmd_data` (20_memory.md R42); bytes not listed are 0x00
(30_encoding.md R70). -/
def lanes : List Byte → Nat
  | [] => 0
  | b :: bs => b.toNat + 256 * lanes bs

/-- The assembler line `LOAD bitLen, [b0, b1, ...]` (30_encoding.md R70). -/
def loadBytes (bitLen : Arg) (bs : List Byte) : Instr := .load bitLen (lanes bs)

/-- `usedBytes` of PACK: `min(m, N)` (42_host_sequences.md R111). -/
def packedBytes (n : Nat) (bs : List Byte) : Nat := min bs.length n

/-- `truncated` of PACK: `m > N` (42_host_sequences.md R111). -/
def packTruncates (n : Nat) (bs : List Byte) : Bool := decide (n < bs.length)

/-- `PACK bytes` on an instance of `n` bytes (42_host_sequences.md R111). -/
def pack (n : Nat) (bs : List Byte) : Instr :=
  loadBytes (BitVec.ofNat 32 (8 * packedBytes n bs)) (bs.take n)

/-- `SCHED o`: even ordinals rotate left, odd ones right, by the ordinal (42_host_sequences.md R112). -/
def sched (o : Byte) : Instr :=
  if o.toNat % 2 = 0 then .rotl (o.setWidth 32) else .rotr (o.setWidth 32)

/-- `SCHED.INV o`: the direction inverted, the same count (42_host_sequences.md R113). -/
def schedInv (o : Byte) : Instr :=
  if o.toNat % 2 = 0 then .rotr (o.setWidth 32) else .rotl (o.setWidth 32)

/-- A forward schedule, in order (42_host_sequences.md R112). -/
def forwardSchedule (os : List Byte) : List Instr := os.map sched

/-- Its inverse: reverse order, directions inverted (42_host_sequences.md R113). -/
def inverseSchedule (os : List Byte) : List Instr := os.reverse.map schedInv

/-- `CLONE`: the LOAD that copies what the observation ports of `src` show
(42_host_sequences.md R115). -/
def clone (src : State) : Instr := .load (BitVec.ofNat 32 src.bufLen) src.bufData

/-- `CLEAR` (42_host_sequences.md R117). -/
def clear (data : Nat) : Instr := .load 0 data

/-- `USEDBYTES`: `buf_len div 8` (42_host_sequences.md R116). -/
def usedBytes (s : State) : Nat := s.bufLen / 8

/-- The byte on lane `j` of a wide port, bits `8*j+7 .. 8*j` of its value (20_memory.md R42). -/
def lane (v j : Nat) : Byte := BitVec.ofNat 8 (v / 2 ^ (8 * j))

/-- The host's read-out after USEDBYTES: bytes `0 .. usedBytes-1` of `buf_data`, byte 0 first
(42_host_sequences.md R116). -/
def readOut (s : State) : List Byte := (List.range (usedBytes s)).map (lane s.bufData)

/-- The 32-bit count a host sends for a count `K` of any size: `K mod L`, with `L = buf_len`
(42_host_sequences.md R121). -/
def portCount (K L : Nat) : Arg := BitVec.ofNat 32 (K % L)

end Sys2Proof.Machine
end

