-- ==== Sys2Proof/Machine/Ports.lean ====
section
/-! DEFINITION. The ports, one rising edge of `clk` at a time (10_state.md R29 to R31,
42_host_sequences.md R120, 70_reset_and_hazards.md R150 to R157): the handshake around the atomic
command of Issue.lean.  `step` is the same block seen one accepted command at a time (R151, R156: "a
model has no time"); the latency is the free value `Config.latency`. -/

namespace Sys2Proof.Machine

/-- The input ports as sampled at one edge (10_state.md R29). -/
structure Pins where
  rst : Bool
  cmdValid : Bool
  cmdWord : CmdWord
  cmdData : Nat
  deriving DecidableEq, Repr

/-- Where the block stands between two edges. -/
inductive PortPhase where
  /-- Power is up and no reset has come yet: the state has no value (93_implementation_defined.md
  U13). -/
  | beforeReset (topByte : TopByte)
  /-- Out of reset, no command in progress (R153). -/
  | idle (s : State)
  /-- `c` was accepted in the state `s`; `left` further cycles pass before the one that gives its
  response (R153, R156). -/
  | busy (s : State) (c : Command) (left : Nat)
  /-- The cycle in which the response is given (R153): `t` is the state it leaves, the response in
  it.  That a reset at the edge that ends this cycle does not take the response back is the model's
  choice, log entry 16. -/
  | answering (t : State)
  deriving DecidableEq, Repr

/-- The output ports during a cycle.  `none` where the spec gives the port no value:
`rsp_status`, `rsp_bit` while `rsp_valid = 0` (U4), `buf_data`, `buf_len` while a command is in
progress (R30, R154, U3). -/
structure Outs where
  cmdReady : Bool
  rspValid : Bool
  rspStatus : Option (BitVec 2)
  rspBit : Option Bool
  bufData : Option Nat
  bufLen : Option Nat
  deriving DecidableEq, Repr

/-- The state reset puts the block in, from whatever phase (R150, R151). -/
def afterReset : PortPhase → State
  | .beforeReset top => State.resetOf top
  | .idle s => resetBlock s
  | .busy s _ _ => resetBlock s
  | .answering t => resetBlock t

/-- The response cycle of `c`: its whole effect at once (20_memory.md R45).  No command stops
(93_implementation_defined.md), so the last two arms are never taken; they leave the block unusable
until a reset.  Log entry 15. -/
def answerPhase (s : State) (c : Command) : PortPhase :=
  match issue c s with
  | .next t => .answering t
  | .fault _ => .beforeReset s.topByte
  | .refused _ => .beforeReset s.topByte

/-- A command in progress with `left` cycles to pass before the one of its response. -/
def progress (s : State) (c : Command) : Nat → PortPhase
  | 0 => answerPhase s c
  | left + 1 => .busy s c left

/-- `LAT(cmd, state) - 1` (R156). -/
def extraCycles (s : State) (c : Command) : Nat :=
  Config.latency s.topByte s.storage s.usedBitLen c.word c.data

/-- One rising edge of `clk`.  Reset wins (R151).  A command is accepted when `cmd_valid = 1` and the
block is idle (R29, R153); the word on the port at that edge is the command (U11).  While a command
is in progress the command port is not looked at (R153).  The response lasts one cycle (R155).
DESIGN CHOICE, log entry 16: whether `rst = 1` at the edge that ends that cycle still cuts its command
off is left open; here the response has been given, and the edge only resets the buffer. -/
def clock (p : Pins) (ph : PortPhase) : PortPhase :=
  if p.rst then .idle (afterReset ph)
  else
    match ph with
    | .beforeReset top => .beforeReset top
    | .idle s =>
      if p.cmdValid then
        progress s ⟨p.cmdWord, p.cmdData⟩ (extraCycles s ⟨p.cmdWord, p.cmdData⟩)
      else .idle (waitIdle s)
    | .busy s c left => progress s c left
    | .answering t => .idle (waitIdle t)

/-- The edges of a list of samples, in order. -/
def clocks : List Pins → PortPhase → PortPhase
  | [], ph => ph
  | p :: ps, ph => clocks ps (clock p ph)

/-- The output ports in each phase; before the first reset they have no value (U13).  DESIGN CHOICE,
log entry 16: in the response cycle `rsp_valid = 1` whatever `rst` is during it. -/
def outs : PortPhase → Option Outs
  | .beforeReset _ => none
  | .idle s => some ⟨true, false, none, none, some s.bufData, some s.bufLen⟩
  | .busy _ _ _ => some ⟨false, false, none, none, none, none⟩
  | .answering t =>
    some ⟨false, true, t.rsp.map fun r => statusCode r.status, t.rsp.map (·.bit), none, none⟩

/-- `cap_bits`, the constant `8*N`, in every phase (10_state.md R23, R30). -/
def capBitsPort : PortPhase → BitVec 32
  | .beforeReset top => (State.resetOf top).capBits
  | .idle s => s.capBits
  | .busy s _ _ => s.capBits
  | .answering t => t.capBits

end Sys2Proof.Machine
end

