-- ==== Sys2Proof/Safety.lean ====
section
/-! DEFINITION. What the spec promises of every state the block can be in (10_state.md R22, R24, R25,
R26), and what a run without an error is (60_exceptions.md R130). -/

namespace Sys2Proof.Machine

/-- `0 <= usedBitLen <= 8*N` (10_state.md R22). -/
abbrev State.LengthInRange (s : State) : Prop := s.usedBitLen ≤ s.capacityBits

/-- Invariant A, tail masking: `S < 2^usedBitLen` (10_state.md R24).  With `usedBitLen = 0` it is
Invariant B (R25). -/
abbrev State.TailMasked (s : State) : Prop := s.view < 2 ^ s.usedBitLen

/-- The states the block can be in: R22, R24 and the model's canonical storage list. -/
abbrev State.Inv (s : State) : Prop :=
  s.LengthInRange ∧ s.TailMasked ∧ Memory.wf s.storage = true

/-- The two states hold the same buffer in instances of the same capacity: they differ at most in
the host's side of the ports. -/
abbrev State.SameBuffer (s t : State) : Prop :=
  s.topByte = t.topByte ∧ s.usedBitLen = t.usedBitLen ∧ s.storage = t.storage

/-- "No error occurred" of a run, as a condition on its responses (60_exceptions.md R130). -/
def allOk (rs : List Response) : Bool := rs.all fun r => r.status == .ok

end Sys2Proof.Machine
end

