-- ==== Sys2Proof/WellFormed.lean ====
section
/-! DEFINITION. The one check a command needs beyond its types: its data operand fits the port
`cmd_data`, which has `8*N` bits (30_encoding.md R65, 10_state.md R29).  Every other field has the
width of its port field already, and every value of `arg` is legal to present (30_encoding.md R67). -/

namespace Sys2Proof

/-- A data operand that the `8*n`-bit port of an `n`-byte instance can carry (30_encoding.md R65). -/
def dataFits (n : Nat) (data : Nat) : Bool := decide (data < 2 ^ (8 * n))

/-- Well-formedness of a command for an instance of `n` bytes. -/
def Instr.wf (n : Nat) : Instr → Bool
  | .load _ data => dataFits n data
  | .getbit _ => true
  | .setbit _ _ => true
  | .rotl _ => true
  | .rotr _ => true

/-- What an `n`-byte instance's command port can carry. -/
def Command.wf (n : Nat) (c : Command) : Bool := dataFits n c.data

end Sys2Proof
end

