-- ==== Sys2Proof/Certificates/Slice0/Obligations.lean ====
section
/-! DEFINITION. What the provers are asked to prove of the model, from the numbered rules of spec/.
`s.Inv` is the model's form of 10_state.md R22, R24 and R25 with the canonical storage list
(Safety.lean); that it holds at reset and is kept by every step are statements of their own. -/

open Sys2Proof Sys2Proof.Machine

/-! ### Encoding -/

/-- 95_test_vectors.md: command words written out there, one or more per row of 30_encoding.md R66,
and words it calls illegal, decode as it says. -/
def Obligations.SpecWordsDecode : Prop :=
  decode ⟨0x100000000D, 0xFFED⟩ = .instr (.load 13 0xFFED) ∧
  decode ⟨0x10FFFFFFFF, 0xFFFF⟩ = .instr (.load 4294967295 0xFFFF) ∧
  decode ⟨0x200000000C, 0⟩ = .instr (.getbit 12) ∧
  decode ⟨0x310000000C, 0⟩ = .instr (.setbit 12 true) ∧
  decode ⟨0x3000000000, 0⟩ = .instr (.setbit 0 false) ∧
  decode ⟨0x40000000FF, 0⟩ = .instr (.rotl 255) ∧
  decode ⟨0x5000000069, 0⟩ = .instr (.rotr 105) ∧
  decode ⟨0x0000000000, 0⟩ = .illegal .unusedOpcode ∧
  decode ⟨0xF000000000, 0⟩ = .illegal .unusedOpcode ∧
  decode ⟨0x4100000004, 0⟩ = .illegal .valueBit ∧
  decode ⟨0x2200000000, 0⟩ = .illegal .reservedBits

/-- 30_encoding.md R60, R66: decoding the encoding of any instruction gives it back, every operand at
every value. -/
def Obligations.DecodeEncodeRoundTrip : Prop :=
  ∀ i : Instr, decode (encode i) = .instr i

/-- 30_encoding.md R66: a legal word is the encoding of what it decodes to, so each word has one
meaning; LOAD gives its data operand back too. -/
def Obligations.EncodeDecodeRoundTrip : Prop :=
  ∀ (c : Command) (i : Instr), decode c = .instr i →
    (encode i).word = c.word ∧ ((∃ b d, i = .load b d) → (encode i).data = c.data)

/-- 30_encoding.md R66, the mask and match columns: a word is the command of a row exactly when
`w AND mask = match`; its operands are `w mod 2^32` and, for SETBIT, bit 32. -/
def Obligations.OpcodeMapMaskMatch : Prop :=
  ∀ c : Command,
    let arg : Arg := BitVec.ofNat 32 (c.word.toNat % 2 ^ 32)
    (c.word &&& 0xFF00000000#40 = 0x1000000000#40 ↔ decode c = .instr (.load arg c.data)) ∧
    (c.word &&& 0xFF00000000#40 = 0x2000000000#40 ↔ decode c = .instr (.getbit arg)) ∧
    (c.word &&& 0xFE00000000#40 = 0x3000000000#40 ↔
      decode c = .instr (.setbit arg (c.word.getLsbD 32))) ∧
    (c.word &&& 0xFF00000000#40 = 0x4000000000#40 ↔ decode c = .instr (.rotl arg)) ∧
    (c.word &&& 0xFF00000000#40 = 0x5000000000#40 ↔ decode c = .instr (.rotr arg))

/-- 30_encoding.md R67: the illegal words are exactly those with `op = 0`, `op` in 6..15,
`rsv != 000`, or `v = 1` and `op != 3`, the fields read off the word as R60's number. -/
def Obligations.IllegalWordsExactly : Prop :=
  ∀ c : Command,
    (∃ why, decode c = .illegal why) ↔
      (c.word.toNat / 2 ^ 36 = 0 ∨ 6 ≤ c.word.toNat / 2 ^ 36 ∨ c.word.toNat / 2 ^ 33 % 8 ≠ 0 ∨
        (c.word.toNat / 2 ^ 32 % 2 = 1 ∧ c.word.toNat / 2 ^ 36 ≠ 3))

/-! ### The step -/

/-- 00_scope.md R11, 70_reset_and_hazards.md R153: a step takes the command at the head of what the
host presents and is `exec` of what it decodes to, in the state with that command taken off.  That what
the host presents is a list in State (log entry 3), and the clause that `withFetchWord` presents
exactly a table word, its bits laid on the port as log entry 9 says, are the model's choices. -/
def Obligations.StepRunsDecodedCommand : Prop :=
  (∀ (s : State) (c : Command) (i : Instr) (rest : List PortSample),
    s.inputs = presents c :: rest → decode c = .instr i →
      step s = exec i { s with inputs := rest }) ∧
  (∀ (s : State) (nbits w : Nat) (i : Instr), decodeTableWord nbits w = some i →
      step (s.withFetchWord nbits w) = exec i s)

/-- 60_exceptions.md R133: an illegal word, whatever its operand bits and `cmd_data`, is answered
`IllegalCommand`, code 3, with `rsp_bit = 0`, and changes no state. -/
def Obligations.IllegalCommandAnswered : Prop :=
  (statusCode .illegalCommand).toNat = 3 ∧
  ∀ (s : State) (c : Command),
    (c.word.toNat / 2 ^ 36 = 0 ∨ 6 ≤ c.word.toNat / 2 ^ 36 ∨ c.word.toNat / 2 ^ 33 % 8 ≠ 0 ∨
      (c.word.toNat / 2 ^ 32 % 2 = 1 ∧ c.word.toNat / 2 ^ 36 ≠ 3)) →
    issue c s = .next { s with rsp := some ⟨.illegalCommand, false⟩ }

/-- 70_reset_and_hazards.md R150, R151: reset gives the reset state whatever the state was, and a
command beside it gives no response and leaves no effect.  That one sample stands for both cases of
R151, and leaves what the host presents next, is the model's reading (log entries 3 and 5). -/
def Obligations.ResetEventWins : Prop :=
  ∀ (s : State) (c : Option Command) (rest : List PortSample),
    s.inputs = { rst := true, cmd := c } :: rest →
      step s = .next { State.resetOf s.topByte with inputs := rest }

/-- 60_exceptions.md R140: with no command presented the block waits, its buffer unchanged and no
response given.  That the block also waits when the model's list of inputs has run out is the
model's choice (log entries 3 and 4). -/
def Obligations.IdleStepKeepsBuffer : Prop :=
  ∀ s : State,
    (s.inputs = [] → step s = .next { s with rsp := none }) ∧
    (∀ rest, s.inputs = { rst := false, cmd := none } :: rest →
      step s = .next { s with rsp := none, inputs := rest })

/-- 70_reset_and_hazards.md R157, 30_encoding.md R68: no step stops, and a step that takes a command
gives exactly one response; one that takes none gives none.  The fields that hold the response and
what the host presents are the model's choice (log entries 3 and 4). -/
def Obligations.EveryStepAnswers : Prop :=
  ∀ s : State, ∃ t, step s = .next t ∧
    (∀ c rest, s.inputs = presents c :: rest → t.inputs = rest ∧ ∃ r, t.rsp = some r) ∧
    ((∀ c rest, s.inputs ≠ presents c :: rest) → t.rsp = none)

/-! ### Reset and the invariants -/

/-- 10_state.md R31: what reset leaves, on an instance of any capacity; the ports then show
`cmd_ready = 1`, `rsp_valid = 0`, `buf_data = 0`, `buf_len = 0`, `cap_bits = 8*N`.  That the model's
reset state has nothing presented is the model's choice (log entry 3). -/
def Obligations.ResetStateValues : Prop :=
  ∀ top : TopByte,
    (State.resetOf top).usedBitLen = 0 ∧
    (∀ j, Memory.read (State.resetOf top).storage j = 0) ∧
    (State.resetOf top).view = 0 ∧
    outs (.idle (State.resetOf top)) = some ⟨true, false, none, none, some 0, some 0⟩ ∧
    (State.resetOf top).capBits.toNat = 8 * (top.val + 1) ∧
    (State.resetOf top).rsp = none ∧
    State.reset = State.resetOf Config.topByte

/-- 10_state.md R26: the invariants hold in the reset state of every instance, and in
`State.reset`. -/
def Obligations.ResetStateInvariant : Prop :=
  (∀ top : TopByte, (State.resetOf top).Inv) ∧ State.reset.Inv

/-- 10_state.md R22, R24, R26: from every state that meets the invariants, a step gives a state that
meets them. -/
def Obligations.StepKeepsInvariant : Prop :=
  ∀ s t : State, s.Inv → step s = .next t → t.Inv

/-- 10_state.md R22, R24, R25, R26: every state reached from reset by any inputs holds
`usedBitLen <= 8*N`, `S < 2^usedBitLen`, and with `usedBitLen = 0` only zero bytes.  That a run's inputs
are a list in State is the model's choice (log entry 3). -/
def Obligations.ReachableStatesAreMasked : Prop :=
  ∀ (top : TopByte) (ins : List PortSample) (n : Nat) (t : State),
    core.run n { State.resetOf top with inputs := ins } = .next t →
      t.usedBitLen ≤ t.capacityBits ∧ t.view < 2 ^ t.usedBitLen ∧
        (t.usedBitLen = 0 → ∀ j, Memory.read t.storage j = 0)

/-- 10_state.md R24, R25: on a canonical buffer, `S < 2^usedBitLen` says exactly that bytes at and
above `ceil(usedBitLen/8)` are zero and, when there is a boundary byte, so are its bits at and above
`usedBitLen mod 8`. -/
def Obligations.TailMaskedByteByByte : Prop :=
  ∀ s : State, Memory.wf s.storage = true →
    (s.view < 2 ^ s.usedBitLen ↔
      (∀ j, (s.usedBitLen + 7) / 8 ≤ j → Memory.read s.storage j = 0) ∧
      (s.usedBitLen % 8 ≠ 0 → ∀ p, s.usedBitLen % 8 ≤ p → p < 8 →
        (Memory.read s.storage (s.usedBitLen / 8)).getLsbD p = false))

/-- 10_state.md R23: no step changes the capacity. -/
def Obligations.CapacityNeverChanges : Prop :=
  ∀ s t : State, step s = .next t → t.capacityBytes = s.capacityBytes ∧ t.capBits = s.capBits

/-- 10_state.md R22: `usedBitLen` is written only by a successful LOAD, to its `bitLen`, and by
reset, to 0. -/
def Obligations.LengthWrittenOnlyByLoadAndReset : Prop :=
  ∀ s t : State, step s = .next t →
    t.usedBitLen = s.usedBitLen ∨
    (∃ c rest, s.inputs = { rst := true, cmd := c } :: rest ∧ t.usedBitLen = 0) ∨
    (∃ c rest b d, s.inputs = presents c :: rest ∧ decode c = .instr (.load b d) ∧
      b.toNat ≤ s.capacityBits ∧ t.rsp = some ⟨.ok, false⟩ ∧ t.usedBitLen = b.toNat)

/-- 00_scope.md R5, 10_state.md R29, R30: `LW` is the least width that holds `0 .. 8*N`, and on a
legal buffer `buf_len`, `buf_data` and `cap_bits` fit their ports. -/
def Obligations.ObservationPortWidths : Prop :=
  (∀ n, 1 ≤ n → 8 * n < 2 ^ lengthWidth n ∧ ∀ w, 8 * n < 2 ^ w → lengthWidth n ≤ w) ∧
  (∀ s : State, s.Inv →
    s.bufLen < 2 ^ lengthWidth s.capacityBytes ∧ s.bufData < 2 ^ (8 * s.capacityBytes) ∧
    s.capBits.toNat = 8 * s.capacityBytes ∧ ∀ i, s.bufLen ≤ i → s.bufData.testBit i = false)

/-! ### LOAD -/

/-- 40_buffer_control.md R80: a LOAD within the capacity completes with
`usedBitLen <- bitLen`, `S <- D mod 2^bitLen`, every byte register written with its byte of that
integer, and nothing else changed. -/
def Obligations.LoadStoresMaskedData : Prop :=
  ∀ (s : State) (b : Arg) (d : Nat), b.toNat ≤ 8 * s.capacityBytes →
    ∃ t, exec (.load b d) s = .next t ∧
      t.usedBitLen = b.toNat ∧ t.view = d % 2 ^ b.toNat ∧
      (∀ j, Memory.read t.storage j = BitVec.ofNat 8 (d % 2 ^ b.toNat / 2 ^ (8 * j))) ∧
      Memory.wf t.storage = true ∧
      t.rsp = some ⟨.ok, false⟩ ∧ t.topByte = s.topByte ∧ t.inputs = s.inputs

/-- 40_buffer_control.md R80 corner cases (a) to (d), 00_scope.md R8: after a successful LOAD the
bytes below the boundary are the operand's, the boundary byte keeps its low `bitLen mod 8` bits, and
every higher byte is zero. -/
def Obligations.LoadMasksByteByByte : Prop :=
  ∀ (s : State) (b : Arg) (d : Nat), b.toNat ≤ 8 * s.capacityBytes →
    ∃ t, exec (.load b d) s = .next t ∧ ∀ j,
      Memory.read t.storage j =
        if j < b.toNat / 8 then BitVec.ofNat 8 (d / 2 ^ (8 * j))
        else if j = b.toNat / 8 then BitVec.ofNat 8 (d / 2 ^ (8 * j) % 2 ^ (b.toNat % 8))
        else 0

/-- 60_exceptions.md R131: a LOAD above the capacity, and nothing else, answers `CapacityExceeded`,
code 1, and carries nothing more; the whole state but the response is kept. -/
def Obligations.CapacityExceededExactly : Prop :=
  (statusCode .capacityExceeded).toNat = 1 ∧
  (∀ (s : State) (b : Arg) (d : Nat), 8 * s.capacityBytes < b.toNat →
    exec (.load b d) s = .next { s with rsp := some ⟨.capacityExceeded, false⟩ }) ∧
  (∀ (s t : State) (c : Command) (bit : Bool), issue c s = .next t →
    t.rsp = some ⟨.capacityExceeded, bit⟩ →
      ∃ b d, decode c = .instr (.load b d) ∧ 8 * s.capacityBytes < b.toNat)

/-- 40_buffer_control.md R80, 93_implementation_defined.md U1: the bits of `cmd_data` at and above
`bitLen` have no effect. -/
def Obligations.LoadIgnoresDataAboveLength : Prop :=
  ∀ (s : State) (b : Arg) (d d' : Nat), d % 2 ^ b.toNat = d' % 2 ^ b.toNat →
    exec (.load b d) s = exec (.load b d') s

/-- 40_buffer_control.md R80: no bit of the old buffer survives a successful LOAD: its whole result
is the same from any two states of the same instance before the same inputs. -/
def Obligations.LoadForgetsOldBuffer : Prop :=
  ∀ (s s' : State) (b : Arg) (d : Nat), s.topByte = s'.topByte → s.inputs = s'.inputs →
    b.toNat ≤ 8 * s.capacityBytes → exec (.load b d) s = exec (.load b d) s'

/-! ### GETBIT and SETBIT -/

/-- 60_exceptions.md R132: GETBIT and SETBIT at an index at or above `usedBitLen`, and nothing else,
answer `IndexOutOfRange`, code 2, with `rsp_bit = 0`; the whole state but the response is kept. -/
def Obligations.IndexOutOfRangeExactly : Prop :=
  (statusCode .indexOutOfRange).toNat = 2 ∧
  (∀ (s : State) (i : Arg), s.usedBitLen ≤ i.toNat →
    exec (.getbit i) s = .next { s with rsp := some ⟨.indexOutOfRange, false⟩ } ∧
    ∀ v, exec (.setbit i v) s = .next { s with rsp := some ⟨.indexOutOfRange, false⟩ }) ∧
  (∀ (s t : State) (c : Command) (bit : Bool), issue c s = .next t →
    t.rsp = some ⟨.indexOutOfRange, bit⟩ →
      ∃ i : Arg, s.usedBitLen ≤ i.toNat ∧
        (decode c = .instr (.getbit i) ∨ ∃ v, decode c = .instr (.setbit i v)))

/-- 40_buffer_control.md R81: GETBIT below `usedBitLen` completes with the bit
`(S div 2^i) mod 2`, which is bit `i mod 8` of `storage[i div 8]`, and changes nothing else. -/
def Obligations.GetbitReadsAddressedBit : Prop :=
  ∀ (s : State) (i : Arg), Memory.wf s.storage = true → i.toNat < s.usedBitLen →
    ∃ b : Bool, exec (.getbit i) s = .next { s with rsp := some ⟨.ok, b⟩ } ∧
      b.toNat = s.view / 2 ^ i.toNat % 2 ∧
      b = (Memory.read s.storage (i.toNat / 8)).getLsbD (i.toNat % 8)

/-- 40_buffer_control.md R82: SETBIT below `usedBitLen` completes with
`S <- S - bit(S,i)*2^i + v*2^i`, and the length, the instance and the inputs are kept.  R82 calls this
the plain reading of the source (91_not_in_source.md N9, log entry 10). -/
def Obligations.SetbitWritesAddressedBit : Prop :=
  ∀ (s : State) (i : Arg) (v : Bool), Memory.wf s.storage = true → i.toNat < s.usedBitLen →
    ∃ t, exec (.setbit i v) s = .next t ∧
      t.view = s.view - s.view / 2 ^ i.toNat % 2 * 2 ^ i.toNat + v.toNat * 2 ^ i.toNat ∧
      Memory.wf t.storage = true ∧ t.rsp = some ⟨.ok, false⟩ ∧
      t.usedBitLen = s.usedBitLen ∧ t.topByte = s.topByte ∧ t.inputs = s.inputs

/-- 40_buffer_control.md R82, 20_memory.md R44, the frame of SETBIT: every byte register but
`storage[i div 8]` is kept, and in that one every bit but `i mod 8`, which becomes `v`.  R82 calls this
the plain reading of the source (91_not_in_source.md N9, log entry 10). -/
def Obligations.SetbitChangesOneBit : Prop :=
  ∀ (s : State) (i : Arg) (v : Bool), Memory.wf s.storage = true → i.toNat < s.usedBitLen →
    ∃ t, exec (.setbit i v) s = .next t ∧
      (∀ j, j ≠ byteIndex (scalar i) → Memory.read t.storage j = Memory.read s.storage j) ∧
      (∀ p, p < 8 → (Memory.read t.storage (byteIndex (scalar i))).getLsbD p =
        if p = bitPosition (scalar i) then v
        else (Memory.read s.storage (byteIndex (scalar i))).getLsbD p)

/-- 20_memory.md R47 (a), 40_buffer_control.md R82 (e): a GETBIT after a successful SETBIT of the same
index returns the value set; of another index in range, what it returned before.  R82 calls its
reading of SETBIT the plain one of the source (91_not_in_source.md N9, log entry 10). -/
def Obligations.GetbitAfterSetbit : Prop :=
  ∀ (s : State) (i j : Arg) (v : Bool), Memory.wf s.storage = true →
    i.toNat < s.usedBitLen → j.toNat < s.usedBitLen →
    ∃ t u u', exec (.setbit i v) s = .next t ∧ exec (.getbit j) t = .next u ∧
      exec (.getbit j) s = .next u' ∧ t.rsp = some ⟨.ok, false⟩ ∧
      u.rsp = if j = i then some ⟨.ok, v⟩ else u'.rsp

/-! ### Errors and responses -/

/-- 60_exceptions.md R137: a command that fails changes nothing. -/
def Obligations.FailedCommandChangesNothing : Prop :=
  ∀ (s t : State) (c : Command) (r : Response), issue c s = .next t → t.rsp = some r →
    r.status ≠ .ok → t = { s with rsp := some ⟨r.status, false⟩ }

/-- 60_exceptions.md R141, R138: a host that repeats a failed command from the state it leaves gets
the same error again, and again no change. -/
def Obligations.FailedCommandRepeats : Prop :=
  ∀ (s t : State) (c : Command) (r : Response), issue c s = .next t → t.rsp = some r →
    r.status ≠ .ok → issue c t = .next t

/-- 30_encoding.md R68: `rsp_bit` is 1 only in the response to a successful GETBIT. -/
def Obligations.ResponseBitOnlyFromGetbit : Prop :=
  ∀ (s t : State) (c : Command) (st : Status), issue c s = .next t →
    t.rsp = some ⟨st, true⟩ → st = .ok ∧ ∃ i, decode c = .instr (.getbit i) ∧
      i.toNat < s.usedBitLen

/-- 30_encoding.md R65: every command but LOAD ignores `cmd_data` entirely. -/
def Obligations.DataIgnoredOutsideLoad : Prop :=
  ∀ (s : State) (w : CmdWord) (d d' : Nat), w.toNat / 2 ^ 36 ≠ 1 →
    issue ⟨w, d⟩ s = issue ⟨w, d'⟩ s

/-- 30_encoding.md R68: the four status codes, no two alike. -/
def Obligations.StatusCodesAsListed : Prop :=
  (statusCode .ok).toNat = 0 ∧ (statusCode .capacityExceeded).toNat = 1 ∧
  (statusCode .indexOutOfRange).toNat = 2 ∧ (statusCode .illegalCommand).toNat = 3 ∧
  ∀ a b : Status, statusCode a = statusCode b → a = b

/-- 10_state.md R20, R28: no command, legal or not, reads anything but the buffer and the capacity:
from two states with the same buffer, whatever response stood before and whatever the host will
present next, it leaves the same buffer and gives the same response. -/
def Obligations.CommandsReadOnlyTheBuffer : Prop :=
  ∀ (s s' : State) (c : Command), s.SameBuffer s' →
    ∃ t t', issue c s = .next t ∧ issue c s' = .next t' ∧ t.SameBuffer t' ∧ t.rsp = t'.rsp

/-- 20_memory.md R49, 10_state.md R27: no command, legal or not, changes what the block executes
next: the contents of `storage` are never decoded, commands come only from the command port.  That
what comes there is a list in State is the model's choice (log entry 3). -/
def Obligations.CommandsNeverChangeInputs : Prop :=
  (∀ (s t : State) (c : Command), issue c s = .next t → t.inputs = s.inputs) ∧
  (∀ (s t : State), step s = .next t → t.inputs = s.inputs.tail)

/-! ### ROTL and ROTR -/

/-- 41_rotation.md R90, R91: on the empty ring both rotations complete, with OK, and change
nothing. -/
def Obligations.RotationsOfEmptyRing : Prop :=
  ∀ (s : State) (k : Arg), s.usedBitLen = 0 →
    exec (.rotl k) s = .next { s with rsp := some ⟨.ok, false⟩ } ∧
    exec (.rotr k) s = .next { s with rsp := some ⟨.ok, false⟩ }

/-- 41_rotation.md R90, the pseudocode: ROTL on a ring that is not empty completes with
`S <- mask(((S * 2^k') mod 2^L) + (S div 2^(L - k')), L)`, and the length, the instance, the inputs
and every byte at or above `ceil(L/8)` are kept. -/
def Obligations.RotlClosedForm : Prop :=
  ∀ (s : State) (k : Arg), s.Inv → 0 < s.usedBitLen →
    ∃ t, exec (.rotl k) s = .next t ∧
      t.view = ((s.view * 2 ^ (k.toNat % s.usedBitLen)) % 2 ^ s.usedBitLen +
        s.view / 2 ^ (s.usedBitLen - k.toNat % s.usedBitLen)) % 2 ^ s.usedBitLen ∧
      (∀ j, (s.usedBitLen + 7) / 8 ≤ j → Memory.read t.storage j = Memory.read s.storage j) ∧
      t.rsp = some ⟨.ok, false⟩ ∧
      t.usedBitLen = s.usedBitLen ∧ t.topByte = s.topByte ∧ t.inputs = s.inputs

/-- 41_rotation.md R90, bit by bit: ROTL moves the bit at `i` to `(i + k) mod L` for every `i` of the
ring, and every bit of the tail is 0. -/
def Obligations.RotlMovesEveryBit : Prop :=
  ∀ (s : State) (k : Arg), s.Inv → 0 < s.usedBitLen →
    ∃ t, exec (.rotl k) s = .next t ∧
      (∀ i, i < s.usedBitLen →
        t.view.testBit ((i + k.toNat) % s.usedBitLen) = s.view.testBit i) ∧
      (∀ i, s.usedBitLen ≤ i → t.view.testBit i = false) ∧
      t.rsp = some ⟨.ok, false⟩ ∧
      t.usedBitLen = s.usedBitLen ∧ t.topByte = s.topByte ∧ t.inputs = s.inputs

/-- 41_rotation.md R97, R91: ROTR moves the bit at `i` to `(i - k) mod L`, the non-negative
remainder, for every `i` of the ring, and every bit of the tail is 0. -/
def Obligations.RotrMovesEveryBit : Prop :=
  ∀ (s : State) (k : Arg), s.Inv → 0 < s.usedBitLen →
    ∃ t, exec (.rotr k) s = .next t ∧
      (∀ i : Nat, i < s.usedBitLen →
        t.view.testBit (((i : Int) - (k.toNat : Int)) % (s.usedBitLen : Int)).toNat =
          s.view.testBit i) ∧
      (∀ i, s.usedBitLen ≤ i → t.view.testBit i = false) ∧
      (∀ j, (s.usedBitLen + 7) / 8 ≤ j → Memory.read t.storage j = Memory.read s.storage j) ∧
      t.rsp = some ⟨.ok, false⟩ ∧
      t.usedBitLen = s.usedBitLen ∧ t.topByte = s.topByte ∧ t.inputs = s.inputs

/-- 41_rotation.md R91: on a ring that is not empty, `ROTR k` is `ROTL m` with
`m = L - (k mod L)`, a count the port can carry. -/
def Obligations.RotrIsRotlOfComplement : Prop :=
  ∀ (s : State) (k : Arg), s.Inv → 0 < s.usedBitLen →
    1 ≤ s.usedBitLen - k.toNat % s.usedBitLen ∧
    s.usedBitLen - k.toNat % s.usedBitLen ≤ s.usedBitLen ∧
    exec (.rotr k) s =
      exec (.rotl (BitVec.ofNat 32 (s.usedBitLen - k.toNat % s.usedBitLen))) s

/-- 41_rotation.md R93: `ROTL 0` and `ROTL L` leave the state unchanged, with OK, including when
`L = 0`. -/
def Obligations.RotlByZeroOrLengthIsIdentity : Prop :=
  ∀ (s : State) (k : Arg), s.Inv → (k.toNat = 0 ∨ k.toNat = s.usedBitLen) →
    exec (.rotl k) s = .next { s with rsp := some ⟨.ok, false⟩ }

/-- 41_rotation.md R94: `ROTL k` then `ROTR k`, and `ROTR k` then `ROTL k`, leave the state as it was,
every response OK, for every length and every count. -/
def Obligations.RotationsAreInverse : Prop :=
  ∀ (s : State) (k : Arg), s.Inv →
    (∃ t, exec (.rotl k) s = .next t ∧ t.rsp = some ⟨.ok, false⟩ ∧
      exec (.rotr k) t = .next { s with rsp := some ⟨.ok, false⟩ }) ∧
    (∃ t, exec (.rotr k) s = .next t ∧ t.rsp = some ⟨.ok, false⟩ ∧
      exec (.rotl k) t = .next { s with rsp := some ⟨.ok, false⟩ })

/-- 41_rotation.md R98: `ROTL a` then `ROTL b` is `ROTL c` for any `c` congruent to `a + b` modulo
`L`, `ROTL a` then `ROTR b` is `ROTL c` for any `c` congruent to `a - b`, the sums being mathematical
ones; rotations commute; with `L = 0` all are no-ops. -/
def Obligations.RotationsCompose : Prop :=
  ∀ (s : State) (a b : Arg), s.Inv →
    ∃ ta tb, exec (.rotl a) s = .next ta ∧ exec (.rotr b) s = .next tb ∧
      (∀ c : Arg, (s.usedBitLen = 0 ∨ c.toNat ≡ a.toNat + b.toNat [MOD s.usedBitLen]) →
        exec (.rotl b) ta = exec (.rotl c) s) ∧
      (∀ c : Arg, (s.usedBitLen = 0 ∨ c.toNat + b.toNat ≡ a.toNat [MOD s.usedBitLen]) →
        exec (.rotr b) ta = exec (.rotl c) s) ∧
      exec (.rotr b) ta = exec (.rotl a) tb ∧
      (∀ tb', exec (.rotl b) s = .next tb' → exec (.rotl b) ta = exec (.rotl a) tb') ∧
      (∀ ta', exec (.rotr a) s = .next ta' → exec (.rotr b) ta' = exec (.rotr a) tb)

/-- 41_rotation.md R99: a rotation keeps the number of 1 bits in positions `0..L-1` and in the whole
of `storage`. -/
def Obligations.RotationsKeepBitCount : Prop :=
  ∀ (s : State) (k : Arg) (i : Instr), s.Inv → (i = .rotl k ∨ i = .rotr k) →
    ∃ t, exec i s = .next t ∧
      (List.range s.usedBitLen).countP (fun j => t.view.testBit j) =
        (List.range s.usedBitLen).countP (fun j => s.view.testBit j) ∧
      (List.range s.capacityBits).countP (fun j => readBit t.storage j) =
        (List.range s.capacityBits).countP (fun j => readBit s.storage j)

/-- 41_rotation.md R96: when `L = 8*m`, `m` in `1..N` (`m = N` is the full buffer), ROTL turns the
integer of bytes `0..m-1` into its native `8*m`-bit rotate-left by `k mod 8m`, both as the rule
writes it and as Lean's own bit-vector rotate, and leaves bytes `m..N-1` zero.  R96 marks its formula
as general knowledge, and Lean's rotate is not in the spec: both are the model's (log entry 14). -/
def Obligations.RotlIsNativeRotate : Prop :=
  ∀ (s : State) (k : Arg) (m : Nat), s.Inv → 1 ≤ m → m ≤ s.capacityBytes →
    s.usedBitLen = 8 * m →
    ∃ t, exec (.rotl k) s = .next t ∧
      t.view = s.view * 2 ^ (k.toNat % (8 * m)) % 2 ^ (8 * m) +
        s.view / 2 ^ (8 * m - k.toNat % (8 * m)) ∧
      t.view = ((BitVec.ofNat (8 * m) s.view).rotateLeft (k.toNat % (8 * m))).toNat ∧
      ∀ j, m ≤ j → Memory.read t.storage j = 0

/-! ### Host sequences and runs -/

/-- 42_host_sequences.md R118: for any state and any schedule, the forward sequence followed by the
inverse sequence leaves the buffer exactly as it was, and every response is OK. -/
def Obligations.ScheduleRoundTrip : Prop :=
  ∀ (s : State) (os : List Byte), s.Inv →
    ∃ r, runInstrs (forwardSchedule os ++ inverseSchedule os) s = some r ∧
      r.final.SameBuffer s ∧ allOk r.responses = true ∧ r.responses.length = 2 * os.length

/-- 42_host_sequences.md R119 (a): forward and inverse steps by any ordinals all succeed, and the
buffer ends in one rotation of the ring. -/
def Obligations.AnyScheduleIsOneRotation : Prop :=
  ∀ (s : State) (os os' : List Byte), s.Inv →
    ∃ r k, runInstrs (forwardSchedule os ++ inverseSchedule os') s = some r ∧
      r.final.SameBuffer (s.rotateLeft k) ∧ allOk r.responses = true

/-- 42_host_sequences.md R115, 40_buffer_control.md R80 (f): CLONE gives a destination of the same
capacity the source's buffer, with OK, and cannot fail. -/
def Obligations.CloneCopiesBuffer : Prop :=
  ∀ src dst : State, src.Inv → dst.topByte = src.topByte →
    exec (clone src) dst =
      .next { dst with usedBitLen := src.usedBitLen, storage := src.storage,
                       rsp := some ⟨.ok, false⟩ }

/-- 42_host_sequences.md R117, 10_state.md R31: CLEAR leaves the buffer as reset does, whatever its
data and whatever the state. -/
def Obligations.ClearLeavesResetBuffer : Prop :=
  ∀ (s : State) (d : Nat), ∃ t, exec (clear d) s = .next t ∧
    t.SameBuffer (State.resetOf s.topByte) ∧ t.rsp = some ⟨.ok, false⟩ ∧ t.inputs = s.inputs

/-- 42_host_sequences.md R111, R116: PACK cannot fail; it leaves the first `min(m, N)` bytes of the
sequence in the buffer, zeros above them, and a length of eight times that number; the host's read-out
then gives those bytes back. -/
def Obligations.PackLoadsBytes : Prop :=
  ∀ (s : State) (bs : List Byte),
    ∃ t, exec (pack s.capacityBytes bs) s = .next t ∧ t.rsp = some ⟨.ok, false⟩ ∧
      t.usedBitLen = 8 * min bs.length s.capacityBytes ∧
      usedBytes t = min bs.length s.capacityBytes ∧
      readOut t = bs.take s.capacityBytes ∧
      ∀ j, Memory.read t.storage j =
        if j < min bs.length s.capacityBytes then bs.getD j 0 else 0

/-- 42_host_sequences.md R116: on a legal buffer the host's read-out is byte registers
`0 .. usedBytes-1`, `usedBytes = usedBitLen div 8`, in order; with a whole-byte length it is all of
`buf_data`. -/
def Obligations.ReadOutGivesUsedBytes : Prop :=
  ∀ s : State, s.Inv →
    usedBytes s = s.usedBitLen / 8 ∧
    readOut s = (List.range (s.usedBitLen / 8)).map (Memory.read s.storage) ∧
    (s.usedBitLen % 8 = 0 → lanes (readOut s) = s.bufData)

/-- 42_host_sequences.md R121: a host with a count of any size that sends it reduced modulo `L`
rotates by the count. -/
def Obligations.ReducedCountRotates : Prop :=
  ∀ (s : State) (K : Nat), s.Inv → 0 < s.usedBitLen →
    exec (.rotl (portCount K s.usedBitLen)) s =
      .next { s.rotateLeft K with rsp := some ⟨.ok, false⟩ }

/-- 70_reset_and_hazards.md R158, 20_memory.md R47 (d): a list of commands runs to its end with one
response per command, in command order: presented at the port, one a step, the commands lead to the
same final state, and response `n` of the run is the response the step of command `n` leaves.  That the
host presents them as a list in State is the model's choice (log entry 3). -/
def Obligations.RunAnswersEveryCommand : Prop :=
  ∀ (s : State) (cs : List Command),
    ∃ r, runCommands cs s = some r ∧ r.responses.length = cs.length ∧
      core.run cs.length { s with inputs := cs.map presents ++ s.inputs } = .next r.final ∧
      ∀ n, n < cs.length →
        ∃ t : State, core.run (n + 1) { s with inputs := cs.map presents ++ s.inputs } = .next t ∧
          t.rsp = r.responses[n]?

/-! ### The ports, edge by edge -/

/-- 70_reset_and_hazards.md R153, R156, R157, 20_memory.md R45: a command accepted while idle is
answered after `LAT` cycles, whatever the latency and whatever the host does at the command port
meanwhile, with the state and response the atomic command gives; until then the block is busy.  When a
command is accepted is the spec's passage from general knowledge (log entry 13), and the form of the
free latency is the model's choice (log entry 7). -/
def Obligations.AcceptedCommandIsAnswered : Prop :=
  ∀ (s : State) (p : Pins) (ps : List Pins), p.rst = false → p.cmdValid = true →
    (∀ q ∈ ps, q.rst = false) → ps.length = extraCycles s ⟨p.cmdWord, p.cmdData⟩ →
    (∃ t, issue ⟨p.cmdWord, p.cmdData⟩ s = .next t ∧
      clocks (p :: ps) (.idle s) = .answering t) ∧
    (∀ n, n < ps.length →
      ∃ left, clocks (p :: ps.take n) (.idle s) = .busy s ⟨p.cmdWord, p.cmdData⟩ left)

/-- 70_reset_and_hazards.md R150, R151, 10_state.md R31: an edge with `rst = 1` puts the block in the
reset state from every phase, a command in progress or presented with it dropped without a
response.  The phase before the first reset is the model's (log entry 11), and so is that an edge that
ends a response cycle resets the buffer after the response has been given (log entry 16). -/
def Obligations.ResetEdgeWins : Prop :=
  ∀ (p : Pins) (ph : PortPhase), p.rst = true →
    ∃ t : State, clock p ph = .idle t ∧ t.usedBitLen = 0 ∧ t.storage = [] ∧
      capBitsPort (.idle t) = capBitsPort ph ∧
      outs (clock p ph) = some ⟨true, false, none, none, some 0, some 0⟩

/-- 70_reset_and_hazards.md R153, R154, R150, 60_exceptions.md R140, 10_state.md R30: out of reset,
`cmd_ready = 1` exactly when the block is idle, the buffer ports have values exactly then; while a
command is in progress nothing at the command port has any effect; and an idle block that is presented
no command waits with its buffer unchanged.  That the buffer ports have no value in the cycle of the
response is the model's reading (log entry 12), and that `rsp_valid = 1` in that cycle whatever `rst` is
in it is the model's choice (log entry 16). -/
def Obligations.ReadyExactlyWhenIdle : Prop :=
  (∀ (ph : PortPhase) (o : Outs), outs ph = some o →
    ((∃ s, ph = .idle s) ↔ o.cmdReady = true) ∧
    (o.cmdReady = true ↔ o.bufData.isSome = true) ∧
    (o.cmdReady = true ↔ o.bufLen.isSome = true) ∧
    (o.rspValid = true ↔ ∃ t, ph = .answering t)) ∧
  (∀ (p q : Pins) (s : State) (c : Command) (left : Nat), p.rst = q.rst →
    clock p (.busy s c left) = clock q (.busy s c left)) ∧
  (∀ (p q : Pins) (t : State), p.rst = q.rst → clock p (.answering t) = clock q (.answering t)) ∧
  (∀ (p : Pins) (s : State), p.rst = false → p.cmdValid = false →
    ∃ t, clock p (.idle s) = .idle t ∧ t.SameBuffer s ∧ outs (.idle t) = outs (.idle s))

/-- 70_reset_and_hazards.md R155, 10_state.md R29, R30: the response strobe lasts one cycle; after it
the block is idle and the ports show the state the command left.  That the buffer ports have no value in
the cycle of the response is the model's reading (log entry 12). -/
def Obligations.ResponseStrobeLastsOneCycle : Prop :=
  ∀ (p : Pins) (s t : State) (c : Command), p.rst = false → issue c s = .next t →
    ∃ r, t.rsp = some r ∧
      outs (.answering t) = some ⟨false, true, some (statusCode r.status), some r.bit, none, none⟩ ∧
      outs (clock p (.answering t)) =
        some ⟨true, false, none, none, some t.bufData, some t.bufLen⟩
end

