-- ==== Sys2Proof/Laws/Decode.lean ====
section
/-! SUPPORT. The fields of an encoded word, read back. -/

namespace Sys2Proof

section
variable (op : BitVec 4) (v : Bool) (arg : Arg)

theorem wordOf_toNat :
    (wordOf op v arg).toNat = op.toNat * 2 ^ 36 + v.toNat * 2 ^ 32 + arg.toNat := by
  have h1 := op.isLt
  have h2 := arg.isLt
  have h3 : v.toNat < 2 := Bool.toNat_lt v
  simp only [wordOf, BitVec.toNat_append, BitVec.toNat_ofBool, BitVec.toNat_ofNat]
  rw [Nat.shiftLeft_eq, Nat.shiftLeft_eq, Nat.shiftLeft_eq]
  rw [← Nat.shiftLeft_eq op.toNat, ← Nat.shiftLeft_add_eq_or_of_lt (by norm_num),
    Nat.shiftLeft_eq]
  rw [show (op.toNat * 2 ^ 3 + 0 % 2 ^ 3) * 2 ^ 1 = (op.toNat * 2 ^ 3) <<< 1 by
      simp [Nat.shiftLeft_eq],
    ← Nat.shiftLeft_add_eq_or_of_lt (by simpa using h3), Nat.shiftLeft_eq]
  rw [← Nat.shiftLeft_eq (op.toNat * 2 ^ 3 * 2 ^ 1 + v.toNat),
    ← Nat.shiftLeft_add_eq_or_of_lt h2, Nat.shiftLeft_eq]
  ring

theorem opField_toNat (w : CmdWord) : (opField w).toNat = w.toNat / 2 ^ 36 := by
  have := w.isLt
  simp only [opField, BitVec.extractLsb'_toNat, Nat.shiftRight_eq_div_pow]
  omega

theorem rsvField_toNat (w : CmdWord) : (rsvField w).toNat = w.toNat / 2 ^ 33 % 8 := by
  simp [rsvField, BitVec.extractLsb'_toNat, Nat.shiftRight_eq_div_pow]

theorem vField_toNat (w : CmdWord) : (vField w).toNat = w.toNat / 2 ^ 32 % 2 := by
  rw [vField, BitVec.getLsbD, Nat.toNat_testBit]

theorem argField_toNat (w : CmdWord) : (argField w).toNat = w.toNat % 2 ^ 32 := by
  simp [argField, BitVec.extractLsb'_toNat]

theorem opField_wordOf : opField (wordOf op v arg) = op := by
  apply BitVec.eq_of_toNat_eq
  rw [opField_toNat, wordOf_toNat]
  have := arg.isLt
  have := Bool.toNat_lt v
  omega

theorem rsvField_wordOf : rsvField (wordOf op v arg) = 0 := by
  apply BitVec.eq_of_toNat_eq
  rw [rsvField_toNat, wordOf_toNat]
  have := arg.isLt
  have := Bool.toNat_lt v
  change _ = 0
  omega

theorem vField_wordOf : vField (wordOf op v arg) = v := by
  have h : (vField (wordOf op v arg)).toNat = v.toNat := by
    rw [vField_toNat, wordOf_toNat]
    have := arg.isLt
    have := Bool.toNat_lt v
    omega
  revert h
  cases vField (wordOf op v arg) <;> cases v <;> decide

theorem argField_wordOf : argField (wordOf op v arg) = arg := by
  apply BitVec.eq_of_toNat_eq
  rw [argField_toNat, wordOf_toNat]
  have := arg.isLt
  omega

end

end Sys2Proof
end

