-- ==== Sys2Proof/Laws/Memory.lean ====
section
/-! SUPPORT. The laws of the storage list: canonical form, read after write, and the integer view. -/

namespace Sys2Proof.Machine

theorem wfFrom_cons {lo a : Nat} {b : Byte} {m : Memory} :
    Memory.wfFrom lo ((a, b) :: m) = true ↔ lo ≤ a ∧ b ≠ 0 ∧ Memory.wfFrom (a + 1) m = true := by
  simp [Memory.wfFrom, and_assoc]

theorem wfFrom_mono {m : Memory} {lo lo' : Nat} (h : lo' ≤ lo) (hm : Memory.wfFrom lo m = true) :
    Memory.wfFrom lo' m = true := by
  cases m with
  | nil => rfl
  | cons c m => rw [wfFrom_cons] at *; exact ⟨by omega, hm.2⟩

theorem read_below {m : Memory} {lo x : Nat} (hm : Memory.wfFrom lo m = true) (hx : x < lo) :
    Memory.read m x = 0 := by
  induction m generalizing lo with
  | nil => rfl
  | cons c m ih =>
    obtain ⟨ha, _, hm⟩ := wfFrom_cons.1 hm
    rw [Memory.read, if_neg (by omega), ih hm (by omega)]

/-! ### Writing -/

theorem write_wfFrom {m : Memory} {lo x : Nat} (v : Byte) (hm : Memory.wfFrom lo m = true)
    (hx : lo ≤ x) : Memory.wfFrom lo (Memory.write m x v) = true := by
  induction m generalizing lo with
  | nil => unfold Memory.write; split <;> simp_all [Memory.wfFrom]
  | cons c m ih =>
    obtain ⟨a, b⟩ := c
    obtain ⟨ha, hb, hm'⟩ := wfFrom_cons.1 hm
    unfold Memory.write
    split
    · split
      · exact hm
      · exact wfFrom_cons.2 ⟨hx, ‹_›, wfFrom_cons.2 ⟨by omega, hb, hm'⟩⟩
    · split
      · split
        · exact wfFrom_mono (by omega) hm'
        · exact wfFrom_cons.2 ⟨ha, ‹_›, hm'⟩
      · exact wfFrom_cons.2 ⟨ha, hb, ih hm' (by omega)⟩

/-- A write keeps the canonical form. -/
theorem write_wf {m : Memory} (x : Nat) (v : Byte) (hm : Memory.wf m = true) :
    Memory.wf (Memory.write m x v) = true :=
  write_wfFrom v hm (Nat.zero_le x)

theorem read_write_from {m : Memory} {lo : Nat} (hm : Memory.wfFrom lo m = true) (x y : Nat)
    (v : Byte) : Memory.read (Memory.write m x v) y = if y = x then v else Memory.read m y := by
  induction m generalizing lo with
  | nil => unfold Memory.write; split <;> simp_all [Memory.read]
  | cons c m ih =>
    obtain ⟨a, b⟩ := c
    obtain ⟨ha, hb, hm'⟩ := wfFrom_cons.1 hm
    have below := fun z (hz : z ≤ a) => read_below (x := z) hm' (by omega)
    unfold Memory.write
    by_cases hxa : x < a
    · rw [if_pos hxa]
      by_cases hv : v = 0
      · rw [if_pos hv]
        split
        · subst_vars; rw [Memory.read, if_neg (by omega), below _ (by omega)]
        · rfl
      · rw [if_neg hv, Memory.read]
    · rw [if_neg hxa]
      by_cases hx : x = a
      · subst hx
        rw [if_pos rfl]
        by_cases hv : v = 0
        · rw [if_pos hv]
          split
          · subst_vars; exact below _ (le_refl _)
          · rw [Memory.read, if_neg ‹_›]
        · rw [if_neg hv, Memory.read]
          split
          · rfl
          · rw [Memory.read, if_neg ‹_›]
      · rw [if_neg hx, Memory.read, ih hm']
        by_cases hya : y = a
        · subst hya; rw [if_pos rfl, if_neg (by omega), Memory.read, if_pos rfl]
        · rw [if_neg hya, Memory.read, if_neg hya]

/-- A read after a write gives the byte written, and every other register is left alone. -/
theorem read_write {m : Memory} (hm : Memory.wf m = true) (x y : Nat) (v : Byte) :
    Memory.read (Memory.write m x v) y = if y = x then v else Memory.read m y :=
  read_write_from hm x y v

/-- Canonical lists that read alike are the same list. -/
theorem ext_from {m m' : Memory} {lo : Nat} (hm : Memory.wfFrom lo m = true)
    (hm' : Memory.wfFrom lo m' = true) (h : ∀ x, Memory.read m x = Memory.read m' x) : m = m' := by
  induction m generalizing m' lo with
  | nil =>
    cases m' with
    | nil => rfl
    | cons c m' =>
      have := h c.1
      obtain ⟨_, hb, _⟩ := wfFrom_cons.1 hm'
      simp only [Memory.read, if_true] at this
      exact absurd this.symm hb
  | cons c m ih =>
    obtain ⟨a, b⟩ := c
    obtain ⟨ha, hb, hm₁⟩ := wfFrom_cons.1 hm
    cases m' with
    | nil =>
      have := h a
      simp only [Memory.read, if_true] at this
      exact absurd this hb
    | cons c' m' =>
      obtain ⟨a', b'⟩ := c'
      obtain ⟨ha', hb', hm₁'⟩ := wfFrom_cons.1 hm'
      have heq : a = a' := by
        rcases Nat.lt_trichotomy a a' with hlt | heq | hgt
        · have := h a
          simp only [Memory.read, if_true, if_neg (Nat.ne_of_lt hlt)] at this
          rw [read_below hm₁' (by omega)] at this
          exact absurd this hb
        · exact heq
        · have := h a'
          simp only [Memory.read, if_true, if_neg (Nat.ne_of_lt hgt)] at this
          rw [read_below hm₁ (by omega)] at this
          exact absurd this.symm hb'
      subst heq
      have hbb : b = b' := by simpa [Memory.read] using h a
      subst hbb
      refine congrArg _ (ih hm₁ hm₁' fun x => ?_)
      have := h x
      simp only [Memory.read] at this
      split at this
      · subst_vars; rw [read_below hm₁ (by omega), read_below hm₁' (by omega)]
      · exact this

theorem memory_ext {m m' : Memory} (hm : Memory.wf m = true) (hm' : Memory.wf m' = true)
    (h : ∀ x, Memory.read m x = Memory.read m' x) : m = m' :=
  ext_from hm hm' h

/-! ### The integer view -/

/-- A canonical list from register `lo` up is a multiple of `2^(8*lo)`. -/
theorem toNat_dvd {m : Memory} {lo : Nat} (hm : Memory.wfFrom lo m = true) :
    2 ^ (8 * lo) ∣ Memory.toNat m := by
  induction m generalizing lo with
  | nil => exact Nat.dvd_zero _
  | cons c m ih =>
    obtain ⟨ha, _, hm⟩ := wfFrom_cons.1 hm
    exact Nat.dvd_add (Dvd.dvd.mul_left (Nat.pow_dvd_pow 2 (by omega)) _)
      ((Nat.pow_dvd_pow 2 (by omega)).trans (ih hm))

/-- The byte view from the integer view (00_scope.md R7). -/
theorem read_eq_div_from {m : Memory} {lo : Nat} (hm : Memory.wfFrom lo m = true) (x : Nat) :
    Memory.read m x = BitVec.ofNat 8 (Memory.toNat m / 2 ^ (8 * x)) := by
  induction m generalizing lo with
  | nil => simp [Memory.read, Memory.toNat]
  | cons c m ih =>
    obtain ⟨a, b⟩ := c
    obtain ⟨ha, hb, hm'⟩ := wfFrom_cons.1 hm
    obtain ⟨q, hq⟩ := toNat_dvd hm'
    have hpow : 2 ^ (8 * (a + 1)) = 2 ^ (8 * a) * 256 := by
      rw [show 8 * (a + 1) = 8 * a + 8 by omega, Nat.pow_add]
    have hpos : 0 < 2 ^ (8 * a) := Nat.two_pow_pos _
    have hsum : Memory.toNat ((a, b) :: m) = 2 ^ (8 * a) * (b.toNat + 256 * q) := by
      rw [Memory.toNat, hq, hpow]; ring
    unfold Memory.read
    rcases Nat.lt_trichotomy x a with hlt | heq | hgt
    · rw [if_neg (by omega), read_below hm' (by omega), hsum]
      obtain ⟨d, rfl⟩ := Nat.exists_eq_add_of_lt hlt
      have : 2 ^ (8 * (x + d + 1)) = 2 ^ (8 * x) * (2 ^ (8 * d) * 256) := by
        rw [show 8 * (x + d + 1) = 8 * x + (8 * d + 8) by omega, Nat.pow_add, Nat.pow_add]
      rw [this, Nat.mul_assoc, Nat.mul_div_cancel_left _ (Nat.two_pow_pos _)]
      apply BitVec.eq_of_toNat_eq
      simp [Nat.mul_assoc, Nat.mul_left_comm _ 256]
    · subst heq
      rw [if_pos rfl, hsum, Nat.mul_div_cancel_left _ hpos]
      apply BitVec.eq_of_toNat_eq
      have := b.isLt
      simp only [BitVec.toNat_ofNat]
      omega
    · rw [if_neg (by omega), ih hm']
      congr 1
      obtain ⟨d, rfl⟩ := Nat.exists_eq_add_of_lt hgt
      have : 2 ^ (8 * (a + d + 1)) = 2 ^ (8 * a) * 256 * 2 ^ (8 * d) := by
        rw [show 8 * (a + d + 1) = 8 * a + 8 + 8 * d by omega, Nat.pow_add, Nat.pow_add]
      rw [this, hsum, hq, hpow, ← Nat.div_div_eq_div_mul, ← Nat.div_div_eq_div_mul,
        ← Nat.div_div_eq_div_mul, ← Nat.div_div_eq_div_mul, Nat.mul_div_cancel_left _ hpos,
        Nat.mul_assoc, Nat.mul_div_cancel_left _ hpos]
      have := b.isLt
      congr 1
      omega

/-- `storage[j] = (S div 2^(8*j)) mod 256` (00_scope.md R7). -/
theorem read_eq_div {m : Memory} (hm : Memory.wf m = true) (x : Nat) :
    Memory.read m x = BitVec.ofNat 8 (Memory.toNat m / 2 ^ (8 * x)) :=
  read_eq_div_from hm x

theorem ofNatFrom_wf (fuel a v : Nat) : Memory.wfFrom a (Memory.ofNatFrom fuel a v) = true := by
  induction fuel generalizing a v with
  | zero => rfl
  | succ fuel ih =>
    unfold Memory.ofNatFrom
    split
    · rfl
    · split
      · exact wfFrom_mono (by omega) (ih _ _)
      · exact wfFrom_cons.2 ⟨le_refl _, ‹_›, ih _ _⟩

/-- Storing an integer leaves the list canonical. -/
theorem ofNat_wf (n v : Nat) : Memory.wf (Memory.ofNat n v) = true := ofNatFrom_wf n 0 v

theorem toNat_ofNatFrom (fuel a v : Nat) :
    Memory.toNat (Memory.ofNatFrom fuel a v) = v % 2 ^ (8 * fuel) * 2 ^ (8 * a) := by
  induction fuel generalizing a v with
  | zero => simp [Memory.ofNatFrom, Memory.toNat, Nat.mod_one]
  | succ fuel ih =>
    have hstep : v % 2 ^ (8 * (fuel + 1)) = v % 256 + 256 * (v / 256 % 2 ^ (8 * fuel)) := by
      rw [show 8 * (fuel + 1) = 8 + 8 * fuel by omega, Nat.pow_add, Nat.mod_mul]
    have hnext : 2 ^ (8 * (a + 1)) = 256 * 2 ^ (8 * a) := by
      rw [show 8 * (a + 1) = 8 + 8 * a by omega, Nat.pow_add]
    unfold Memory.ofNatFrom
    by_cases hv : v = 0
    · subst hv; simp [Memory.toNat]
    · rw [if_neg hv]
      by_cases hb : BitVec.ofNat 8 v = 0
      · have : v % 256 = 0 := by simpa using congrArg BitVec.toNat hb
        rw [if_pos hb, ih, hstep, this, hnext]; ring
      · rw [if_neg hb, Memory.toNat, ih, hstep, hnext, BitVec.toNat_ofNat]; ring

/-- `n` registers hold an integer modulo `2^(8*n)`. -/
theorem toNat_ofNat (n v : Nat) : Memory.toNat (Memory.ofNat n v) = v % 2 ^ (8 * n) := by
  simp [Memory.ofNat, toNat_ofNatFrom]

/-- Equal integer views of canonical lists are equal lists (00_scope.md R7). -/
theorem toNat_injective {m m' : Memory} (hm : Memory.wf m = true) (hm' : Memory.wf m' = true)
    (h : Memory.toNat m = Memory.toNat m') : m = m' :=
  memory_ext hm hm' fun x => by rw [read_eq_div hm, read_eq_div hm', h]

/-- Storing the integer view back changes nothing. -/
theorem ofNat_toNat {m : Memory} {n : Nat} (hm : Memory.wf m = true)
    (hlt : Memory.toNat m < 2 ^ (8 * n)) : Memory.ofNat n (Memory.toNat m) = m :=
  toNat_injective (ofNat_wf _ _) hm (by rw [toNat_ofNat, Nat.mod_eq_of_lt hlt])

/-! ### Single bits -/

/-- Bit `i mod 8` of byte `i div 8` is bit `i` of the integer view (20_memory.md R41). -/
theorem readBit_eq_testBit {m : Memory} (hm : Memory.wf m = true) (i : Nat) :
    readBit m i = (Memory.toNat m).testBit i := by
  have hi : 8 * (i / 8) + i % 8 = i := Nat.div_add_mod i 8
  rw [readBit, byteIndex, bitPosition, read_eq_div hm, BitVec.getLsbD_ofNat,
    decide_eq_true (Nat.mod_lt i (by decide)), Bool.true_and, ← Nat.shiftRight_eq_div_pow,
    Nat.testBit_shiftRight, hi]

theorem getLsbD_putBit (b : Byte) (p q : Nat) (v : Bool) (hp : p < 8) (hq : q < 8) :
    (putBit b p v).getLsbD q = if q = p then v else b.getLsbD q := by
  have h : ∀ (b : Byte) (p q : Fin 8) (v : Bool),
      (putBit b p v).getLsbD q = if q = p then v else b.getLsbD q := by
    intro b p q v
    unfold putBit
    cases v <;> fin_cases p <;> fin_cases q <;> simp
  simpa [Fin.ext_iff] using h b ⟨p, hp⟩ ⟨q, hq⟩ v

/-- A bit write keeps the canonical form. -/
theorem writeBit_wf {m : Memory} (i : Nat) (v : Bool) (hm : Memory.wf m = true) :
    Memory.wf (writeBit m i v) = true := write_wf _ _ hm

/-- A bit write sets that bit and leaves every other bit alone (40_buffer_control.md R82). -/
theorem readBit_writeBit {m : Memory} (hm : Memory.wf m = true) (i j : Nat) (v : Bool) :
    readBit (writeBit m i v) j = if j = i then v else readBit m j := by
  unfold readBit writeBit byteIndex bitPosition
  rw [read_write hm]
  by_cases hb : j / 8 = i / 8
  · rw [if_pos hb, getLsbD_putBit _ _ _ _ (Nat.mod_lt _ (by decide)) (Nat.mod_lt _ (by decide)), hb]
    by_cases hj : j = i
    · subst hj; simp
    · rw [if_neg (by omega), if_neg hj]
  · rw [if_neg hb, if_neg (by rintro rfl; exact hb rfl)]

end Sys2Proof.Machine
end

