-- ==== Sys2Proof/Laws/State.lean ====
section
/-! SUPPORT. What each named update of the state does to each field. -/

namespace Sys2Proof.Machine

section
variable (s : State) (v k : Nat) (st e : Status) (b : Bool) (c : Command)

@[simp] theorem setView_topByte : (s.setView v).topByte = s.topByte := rfl
@[simp] theorem setView_usedBitLen : (s.setView v).usedBitLen = s.usedBitLen := rfl
@[simp] theorem setView_storage : (s.setView v).storage = Memory.ofNat s.capacityBytes v := rfl
@[simp] theorem setView_rsp : (s.setView v).rsp = s.rsp := rfl
@[simp] theorem setView_inputs : (s.setView v).inputs = s.inputs := rfl
@[simp] theorem setView_capacityBytes : (s.setView v).capacityBytes = s.capacityBytes := rfl
@[simp] theorem setView_capacityBits : (s.setView v).capacityBits = s.capacityBits := rfl

@[simp] theorem respond_topByte : (respond st b s).topByte = s.topByte := rfl
@[simp] theorem respond_usedBitLen : (respond st b s).usedBitLen = s.usedBitLen := rfl
@[simp] theorem respond_storage : (respond st b s).storage = s.storage := rfl
@[simp] theorem respond_rsp : (respond st b s).rsp = some ⟨st, b⟩ := rfl
@[simp] theorem respond_inputs : (respond st b s).inputs = s.inputs := rfl
@[simp] theorem respond_view : (respond st b s).view = s.view := rfl
@[simp] theorem respond_capacityBytes : (respond st b s).capacityBytes = s.capacityBytes := rfl
@[simp] theorem respond_capacityBits : (respond st b s).capacityBits = s.capacityBits := rfl

@[simp] theorem raise_topByte : (raise e s).topByte = s.topByte := rfl
@[simp] theorem raise_usedBitLen : (raise e s).usedBitLen = s.usedBitLen := rfl
@[simp] theorem raise_storage : (raise e s).storage = s.storage := rfl
@[simp] theorem raise_rsp : (raise e s).rsp = some ⟨e, false⟩ := rfl
@[simp] theorem raise_inputs : (raise e s).inputs = s.inputs := rfl
@[simp] theorem raise_view : (raise e s).view = s.view := rfl

@[simp] theorem resetBlock_topByte : (resetBlock s).topByte = s.topByte := rfl
@[simp] theorem resetBlock_usedBitLen : (resetBlock s).usedBitLen = 0 := rfl
@[simp] theorem resetBlock_storage : (resetBlock s).storage = [] := rfl
@[simp] theorem resetBlock_rsp : (resetBlock s).rsp = none := rfl
@[simp] theorem resetBlock_inputs : (resetBlock s).inputs = s.inputs := rfl
@[simp] theorem resetBlock_view : (resetBlock s).view = 0 := rfl

@[simp] theorem waitIdle_topByte : (waitIdle s).topByte = s.topByte := rfl
@[simp] theorem waitIdle_usedBitLen : (waitIdle s).usedBitLen = s.usedBitLen := rfl
@[simp] theorem waitIdle_storage : (waitIdle s).storage = s.storage := rfl
@[simp] theorem waitIdle_rsp : (waitIdle s).rsp = none := rfl
@[simp] theorem waitIdle_inputs : (waitIdle s).inputs = s.inputs := rfl
@[simp] theorem waitIdle_view : (waitIdle s).view = s.view := rfl

@[simp] theorem placeCommand_topByte : (placeCommand c s).topByte = s.topByte := rfl
@[simp] theorem placeCommand_usedBitLen : (placeCommand c s).usedBitLen = s.usedBitLen := rfl
@[simp] theorem placeCommand_storage : (placeCommand c s).storage = s.storage := rfl
@[simp] theorem placeCommand_rsp : (placeCommand c s).rsp = s.rsp := rfl
@[simp] theorem placeCommand_inputs : (placeCommand c s).inputs = presents c :: s.inputs := rfl

@[simp] theorem resetOf_topByte (top : TopByte) : (State.resetOf top).topByte = top := rfl
@[simp] theorem resetOf_usedBitLen (top : TopByte) : (State.resetOf top).usedBitLen = 0 := rfl
@[simp] theorem resetOf_storage (top : TopByte) : (State.resetOf top).storage = [] := rfl
@[simp] theorem resetOf_rsp (top : TopByte) : (State.resetOf top).rsp = none := rfl
@[simp] theorem resetOf_inputs (top : TopByte) : (State.resetOf top).inputs = [] := rfl

@[simp] theorem rotateLeft_topByte : (s.rotateLeft k).topByte = s.topByte := by
  unfold State.rotateLeft; split <;> rfl
@[simp] theorem rotateLeft_usedBitLen : (s.rotateLeft k).usedBitLen = s.usedBitLen := by
  unfold State.rotateLeft; split <;> rfl
@[simp] theorem rotateLeft_rsp : (s.rotateLeft k).rsp = s.rsp := by
  unfold State.rotateLeft; split <;> rfl
@[simp] theorem rotateLeft_inputs : (s.rotateLeft k).inputs = s.inputs := by
  unfold State.rotateLeft; split <;> rfl

/-- The capacity is in the range of 00_scope.md R4, by type. -/
theorem capacityBytes_range : 1 ≤ s.capacityBytes ∧ s.capacityBytes ≤ maxCapacityBytes :=
  ⟨Nat.succ_pos _, s.topByte.isLt⟩

/-- `8*N < 2^32` (00_scope.md R4). -/
theorem capacityBits_lt : s.capacityBits < 2 ^ 32 := by
  have := (capacityBytes_range s).2
  simp only [State.capacityBits, maxCapacityBytes] at *
  omega

end

end Sys2Proof.Machine
end

