-- ==== Sys2Proof/Laws/Ops.lean ====
section
/-! SUPPORT. What each shared operation does, once: the ring primitive of 00_scope.md R9 bit by bit,
the integer view after a store, the rotation of the buffer, and everything a command, a sample and a
step can answer. -/

namespace Sys2Proof.Machine

/-! ### The ring primitive -/

theorem mask_lt (S L : Nat) : mask S L < 2 ^ L := Nat.mod_lt _ (Nat.two_pow_pos L)

theorem mask_of_lt {S L : Nat} (h : S < 2 ^ L) : mask S L = S := Nat.mod_eq_of_lt h

theorem testBit_mask (S L i : Nat) : (mask S L).testBit i = (decide (i < L) && S.testBit i) := by
  rw [mask, Nat.testBit_mod_two_pow]

/-- The two summands of the closed form never overlap, so the sum is read bit by bit
(00_scope.md R9). -/
theorem testBit_ringRotl {S L : Nat} (hL : 0 < L) (hS : S < 2 ^ L) (k j : Nat) :
    (ringRotl S L k).testBit j =
      (decide (j < L) &&
        if j < k % L then S.testBit (j + (L - k % L)) else S.testBit (j - k % L)) := by
  have hk : k % L < L := Nat.mod_lt _ hL
  generalize hr : k % L = r at hk
  have hlow : S / 2 ^ (L - r) < 2 ^ r :=
    Nat.div_lt_of_lt_mul (by rwa [← Nat.pow_add, Nat.sub_add_cancel hk.le])
  have hform : ringRotl S L k = 2 ^ r * (S % 2 ^ (L - r)) + S / 2 ^ (L - r) := by
    rw [ringRotl, if_neg (by omega), hr, Nat.mul_comm S]
    congr 1
    conv_lhs => rw [show L = r + (L - r) by omega, Nat.pow_add]
    exact Nat.mul_mod_mul_left _ _ _
  rw [hform, Nat.testBit_two_pow_mul_add _ hlow, ← Nat.shiftRight_eq_div_pow,
    Nat.testBit_shiftRight, Nat.testBit_mod_two_pow]
  by_cases hj : j < r
  · rw [if_pos hj, if_pos hj, decide_eq_true (by omega), Bool.true_and, Nat.add_comm]
  · rw [if_neg hj, if_neg hj]
    congr 1
    exact decide_eq_decide.2 (by omega)

/-- The ring result fits the ring (00_scope.md R9). -/
theorem ringRotl_lt {S L : Nat} (hS : S < 2 ^ L) (k : Nat) : ringRotl S L k < 2 ^ L := by
  rcases Nat.eq_zero_or_pos L with rfl | hL
  · simpa [ringRotl] using hS
  · refine Nat.lt_pow_two_of_testBit _ fun i hi => ?_
    rw [testBit_ringRotl hL hS, decide_eq_false (by omega), Bool.false_and]

/-- The count is taken modulo the ring length (41_rotation.md R90). -/
theorem ringRotl_mod (S L k : Nat) : ringRotl S L (k % L) = ringRotl S L k := by
  unfold ringRotl; rw [Nat.mod_mod]

/-- The per-bit statement of 00_scope.md R9: the bit at `i` goes to `(i + k) mod L`. -/
theorem testBit_ringRotl_dest {S L : Nat} (hL : 0 < L) (hS : S < 2 ^ L) (k i : Nat) (hi : i < L) :
    (ringRotl S L k).testBit ((i + k) % L) = S.testBit i := by
  have hk := Nat.mod_lt k hL
  have hpos : (i + k) % L = if i + k % L < L then i + k % L else i + k % L - L := by
    rw [Nat.add_mod, Nat.mod_eq_of_lt hi]
    split
    · exact Nat.mod_eq_of_lt ‹_›
    · rw [Nat.mod_eq_sub_mod (by omega), Nat.mod_eq_of_lt (by omega)]
  rw [testBit_ringRotl hL hS, decide_eq_true (Nat.mod_lt _ hL), Bool.true_and, hpos]
  generalize k % L = r at *
  split_ifs <;> first | omega | (congr 1; omega)

/-- Every position of the ring is the destination of one bit. -/
theorem ring_source {L : Nat} (k : Nat) {j : Nat} (hj : j < L) :
    ((j + (L - k % L)) % L + k) % L = j := by
  have hk := Nat.mod_lt k (by omega : 0 < L)
  rw [Nat.mod_add_mod, ← Nat.add_mod_mod, show j + (L - k % L) + k % L = j + L by omega,
    Nat.add_mod_right, Nat.mod_eq_of_lt hj]

theorem ringRotl_zero {S L : Nat} (hS : S < 2 ^ L) : ringRotl S L 0 = S := by
  unfold ringRotl
  split
  · rfl
  · simp [Nat.mod_eq_of_lt hS, Nat.div_eq_of_lt hS]

/-- Two ring rotations are one, by the sum of the counts. -/
theorem ringRotl_ringRotl {S L : Nat} (hS : S < 2 ^ L) (a b : Nat) :
    ringRotl (ringRotl S L a) L b = ringRotl S L (a + b) := by
  rcases Nat.eq_zero_or_pos L with rfl | hL
  · simp [ringRotl]
  have ha := ringRotl_lt hS a
  apply Nat.eq_of_testBit_eq
  intro j
  by_cases hj : j < L
  · rw [← ring_source (a + b) hj]
    generalize hi : (j + (L - (a + b) % L)) % L = i
    have hiL : i < L := hi ▸ Nat.mod_lt _ hL
    have hstep := testBit_ringRotl_dest hL ha b ((i + a) % L) (Nat.mod_lt _ hL)
    rw [Nat.mod_add_mod, Nat.add_assoc] at hstep
    rw [hstep, testBit_ringRotl_dest hL hS _ _ hiL, testBit_ringRotl_dest hL hS _ _ hiL]
  · simp only [testBit_ringRotl hL ha, testBit_ringRotl hL hS, decide_eq_false hj, Bool.false_and]

/-! ### The buffer -/

theorem view_setView (s : State) (v : Nat) : (s.setView v).view = v % 2 ^ s.capacityBits :=
  toNat_ofNat _ _

theorem setView_wf (s : State) (v : Nat) : Memory.wf (s.setView v).storage = true := ofNat_wf _ _

theorem view_lt_capacity {s : State} (h : s.Inv) : s.view < 2 ^ s.capacityBits :=
  lt_of_lt_of_le h.2.1 (Nat.pow_le_pow_right (by decide) h.1)

theorem setView_view {s : State} (h : s.Inv) : s.setView s.view = s := by
  have : Memory.ofNat s.capacityBytes s.view = s.storage :=
    ofNat_toNat h.2.2 (view_lt_capacity h)
  rw [State.setView, this]

/-- The integer view after a rotation of a legal buffer: the ring result, whose final mask changes
nothing (41_rotation.md R90). -/
theorem view_rotateLeft {s : State} (h : s.Inv) (k : Nat) :
    (s.rotateLeft k).view = ringRotl s.view s.usedBitLen k := by
  unfold State.rotateLeft
  split
  · rw [ringRotl, if_pos ‹_›]
  · have hlt := ringRotl_lt h.2.1 k
    rw [view_setView, mask_of_lt hlt,
      Nat.mod_eq_of_lt (lt_of_lt_of_le hlt (Nat.pow_le_pow_right (by decide) h.1))]

theorem rotateLeft_inv {s : State} (h : s.Inv) (k : Nat) : (s.rotateLeft k).Inv := by
  refine ⟨?_, ?_, ?_⟩
  · simpa [State.LengthInRange, State.capacityBits, State.capacityBytes] using h.1
  · rw [State.TailMasked, view_rotateLeft h, rotateLeft_usedBitLen]
    exact ringRotl_lt h.2.1 k
  · unfold State.rotateLeft
    split
    · exact h.2.2
    · exact setView_wf _ _

/-- Two legal buffers of the same length, capacity and integer view are the same buffer. -/
theorem sameBuffer_of_view {s t : State} (hs : s.Inv) (ht : t.Inv) (htop : s.topByte = t.topByte)
    (hlen : s.usedBitLen = t.usedBitLen) (hview : s.view = t.view) : s.SameBuffer t :=
  ⟨htop, hlen, toNat_injective hs.2.2 ht.2.2 hview⟩

/-! ### Each meaning on each side of its test -/

section
variable {s : State} {b x : Arg}

theorem execLoad_exceeds {d : Nat} (h : s.capacityBits < b.toNat) :
    execLoad b d s = .next (raise .capacityExceeded s) := by
  rw [execLoad, scalar, if_pos h]

theorem execLoad_fits {d : Nat} (h : b.toNat ≤ s.capacityBits) :
    execLoad b d s = .next (respond .ok false
      (State.setView (mask d b.toNat) { s with usedBitLen := b.toNat })) := by
  rw [execLoad, scalar, if_neg (Nat.not_lt.2 h)]

theorem execGetbit_outside (h : s.usedBitLen ≤ x.toNat) :
    execGetbit x s = .next (raise .indexOutOfRange s) := by
  rw [execGetbit, scalar, if_pos h]

theorem execGetbit_inside (h : x.toNat < s.usedBitLen) :
    execGetbit x s = .next (respond .ok (readBit s.storage x.toNat) s) := by
  rw [execGetbit, scalar, if_neg (Nat.not_le.2 h)]

theorem execSetbit_outside {v : Bool} (h : s.usedBitLen ≤ x.toNat) :
    execSetbit x v s = .next (raise .indexOutOfRange s) := by
  rw [execSetbit, scalar, if_pos h]

theorem execSetbit_inside {v : Bool} (h : x.toNat < s.usedBitLen) :
    execSetbit x v s =
      .next (respond .ok false { s with storage := writeBit s.storage x.toNat v }) := by
  rw [execSetbit, scalar, if_neg (Nat.not_le.2 h)]

end

/-! ### Everything a command can answer -/

/-- Every command of the set answers a next state, and this is all it can be. -/
theorem exec_cases {i : Instr} {s t : State} (h : exec i s = .next t) :
    (∃ b d, i = .load b d ∧ s.capacityBits < b.toNat ∧ t = raise .capacityExceeded s) ∨
    (∃ b d, i = .load b d ∧ b.toNat ≤ s.capacityBits ∧
      t = respond .ok false (State.setView (mask d b.toNat) { s with usedBitLen := b.toNat })) ∨
    (∃ x, i = .getbit x ∧ s.usedBitLen ≤ x.toNat ∧ t = raise .indexOutOfRange s) ∨
    (∃ x, i = .getbit x ∧ x.toNat < s.usedBitLen ∧ t = respond .ok (readBit s.storage x.toNat) s) ∨
    (∃ x v, i = .setbit x v ∧ s.usedBitLen ≤ x.toNat ∧ t = raise .indexOutOfRange s) ∨
    (∃ x v, i = .setbit x v ∧ x.toNat < s.usedBitLen ∧
      t = respond .ok false { s with storage := writeBit s.storage x.toNat v }) ∨
    (∃ k, i = .rotl k ∧ t = respond .ok false (s.rotateLeft k.toNat)) ∨
    (∃ k, i = .rotr k ∧ t = respond .ok false
      (if s.usedBitLen = 0 then s else s.rotateLeft (s.usedBitLen - k.toNat % s.usedBitLen))) := by
  cases i with
  | load b d =>
    rcases Nat.lt_or_ge s.capacityBits b.toNat with hb | hb
    · exact .inl ⟨b, d, rfl, hb, by simpa [exec, execLoad_exceeds hb] using h.symm⟩
    · exact .inr (.inl ⟨b, d, rfl, hb, by simpa [exec, execLoad_fits hb] using h.symm⟩)
  | getbit x =>
    rcases Nat.lt_or_ge x.toNat s.usedBitLen with hx | hx
    · exact .inr (.inr (.inr (.inl ⟨x, rfl, hx, by simpa [exec, execGetbit_inside hx] using h.symm⟩)))
    · exact .inr (.inr (.inl ⟨x, rfl, hx, by simpa [exec, execGetbit_outside hx] using h.symm⟩))
  | setbit x v =>
    rcases Nat.lt_or_ge x.toNat s.usedBitLen with hx | hx
    · exact .inr (.inr (.inr (.inr (.inr (.inl
        ⟨x, v, rfl, hx, by simpa [exec, execSetbit_inside hx] using h.symm⟩)))))
    · exact .inr (.inr (.inr (.inr (.inl
        ⟨x, v, rfl, hx, by simpa [exec, execSetbit_outside hx] using h.symm⟩))))
  | rotl k =>
    exact .inr (.inr (.inr (.inr (.inr (.inr (.inl ⟨k, rfl, (Host.Outcome.next.inj h).symm⟩))))))
  | rotr k =>
    exact .inr (.inr (.inr (.inr (.inr (.inr (.inr
      ⟨k, rfl, (Host.Outcome.next.inj h).symm⟩))))))

/-- No command stops. -/
theorem exec_answers (i : Instr) (s : State) : ∃ t, exec i s = .next t := by
  cases i <;> exact ⟨_, rfl⟩

/-- An accepted command is one of the five or an illegal word. -/
theorem issue_cases {c : Command} {s t : State} (h : issue c s = .next t) :
    (∃ i, decode c = .instr i ∧ exec i s = .next t) ∨
    (∃ why, decode c = .illegal why ∧ t = raise .illegalCommand s) := by
  unfold issue at h
  split at h
  · exact .inl ⟨_, ‹_›, h⟩
  · simp only [execIllegal, Host.Outcome.next.injEq] at h
    exact .inr ⟨_, ‹_›, h.symm⟩

theorem issue_answers (c : Command) (s : State) : ∃ t, issue c s = .next t := by
  unfold issue
  split
  · exact exec_answers _ _
  · exact ⟨_, rfl⟩

/-- A command leaves the instance and what the host presents alone, and gives one response. -/
theorem exec_ports {i : Instr} {s t : State} (h : exec i s = .next t) :
    t.inputs = s.inputs ∧ t.topByte = s.topByte ∧ ∃ r, t.rsp = some r := by
  rcases exec_cases h with ⟨_, _, _, _, rfl⟩ | ⟨_, _, _, _, rfl⟩ | ⟨_, _, _, rfl⟩ | ⟨_, _, _, rfl⟩ |
    ⟨_, _, _, _, rfl⟩ | ⟨_, _, _, _, rfl⟩ | ⟨_, _, rfl⟩ | ⟨_, _, rfl⟩
  case inr.inr.inr.inr.inr.inr.inr => split <;> simp
  all_goals simp

theorem issue_ports {c : Command} {s t : State} (h : issue c s = .next t) :
    t.inputs = s.inputs ∧ t.topByte = s.topByte ∧ ∃ r, t.rsp = some r := by
  rcases issue_cases h with ⟨_, _, h⟩ | ⟨_, _, rfl⟩
  · exact exec_ports h
  · simp

/-- Everything a step can do: wait, reset, or run the command presented. -/
theorem step_cases {s t : State} (h : step s = .next t) :
    (s.inputs = [] ∧ t = waitIdle s) ∨
    (∃ c rest, s.inputs = ⟨true, c⟩ :: rest ∧ t = resetBlock { s with inputs := rest }) ∨
    (∃ rest, s.inputs = ⟨false, none⟩ :: rest ∧ t = waitIdle { s with inputs := rest }) ∨
    (∃ c rest, s.inputs = ⟨false, some c⟩ :: rest ∧ issue c { s with inputs := rest } = .next t) := by
  unfold step at h
  split at h
  · exact .inl ⟨‹_›, by simpa using h.symm⟩
  · rename_i p rest hin
    obtain ⟨rst, cmd⟩ := p
    unfold takeSample at h
    cases rst with
    | true => exact .inr (.inl ⟨cmd, rest, hin, by simpa using h.symm⟩)
    | false =>
      cases cmd with
      | none => exact .inr (.inr (.inl ⟨rest, hin, by simpa using h.symm⟩))
      | some c => exact .inr (.inr (.inr ⟨c, rest, hin, by simpa using h⟩))

/-- One step of a run through the host's interface. -/
theorem run_succ {s t : State} (h : step s = .next t) (n : Nat) :
    Host.Core.run core (n + 1) s = Host.Core.run core n t := by
  have h' : core.step s = .next t := h
  simp only [Host.Core.run, h']

end Sys2Proof.Machine
end

