-- ==== Sys2Proof/Laws/HostSeq.lean ====
section
/-! SUPPORT. The byte lanes of the wide ports, both ways, and what a run of commands is made of. -/

namespace Sys2Proof.Machine

/-- A list of bytes fills its lanes and no more. -/
theorem lanes_lt (bs : List Byte) : lanes bs < 2 ^ (8 * bs.length) := by
  induction bs with
  | nil => simp [lanes]
  | cons b bs ih =>
    have := b.isLt
    rw [List.length_cons, show 8 * (bs.length + 1) = 8 + 8 * bs.length by omega, Nat.pow_add]
    simp only [lanes]
    omega

@[simp] theorem lane_lanes_zero (b : Byte) (bs : List Byte) : lane (lanes (b :: bs)) 0 = b := by
  apply BitVec.eq_of_toNat_eq
  have := b.isLt
  simp only [lane, lanes, BitVec.toNat_ofNat, Nat.mul_zero, Nat.pow_zero, Nat.div_one]
  omega

@[simp] theorem lane_lanes_succ (b : Byte) (bs : List Byte) (j : Nat) :
    lane (lanes (b :: bs)) (j + 1) = lane (lanes bs) j := by
  have := b.isLt
  have hhead : lanes (b :: bs) / 2 ^ 8 = lanes bs := by simp only [lanes]; omega
  rw [lane, lane, show 8 * (j + 1) = 8 + 8 * j by omega, Nat.pow_add, ← Nat.div_div_eq_div_mul,
    hhead]

/-- Byte `j` of a list is on lane `j` (20_memory.md R42). -/
theorem lane_lanes (bs : List Byte) (j : Nat) : lane (lanes bs) j = bs.getD j 0 := by
  induction bs generalizing j with
  | nil => simp [lanes, lane]
  | cons b bs ih => cases j <;> simp [ih]

/-- Lane `j` of `buf_data` is `storage[j]` (20_memory.md R42). -/
theorem lane_bufData {s : State} (h : Memory.wf s.storage = true) (j : Nat) :
    lane s.bufData j = Memory.read s.storage j := (read_eq_div h j).symm

@[simp] theorem readOut_length (s : State) : (readOut s).length = usedBytes s := by
  simp [readOut]

/-- The first command of a run, and the rest of it. -/
theorem runCommands_cons {c : Command} {s t : State} (h : issue c s = .next t)
    (cs : List Command) :
    runCommands (c :: cs) s =
      (runCommands cs t).map fun r => { r with responses := t.rsp.toList ++ r.responses } := by
  rw [runCommands, h]

/-- A command does the same whatever the host will present after it. -/
theorem issue_inputs {c : Command} {s t : State} (h : issue c s = .next t)
    (ins : List PortSample) :
    issue c { s with inputs := ins } = .next { t with inputs := ins } := by
  rcases issue_cases h with ⟨i, hd, h⟩ | ⟨_, hw, rfl⟩
  · simp only [issue, hd]
    rcases exec_cases h with ⟨_, _, rfl, hb, rfl⟩ | ⟨_, _, rfl, hb, rfl⟩ | ⟨_, rfl, hx, rfl⟩ |
      ⟨_, rfl, hx, rfl⟩ | ⟨_, _, rfl, hx, rfl⟩ | ⟨_, _, rfl, hx, rfl⟩ | ⟨_, rfl, rfl⟩ |
      ⟨_, rfl, rfl⟩ <;> simp only [exec]
    · exact execLoad_exceeds hb
    · exact execLoad_fits hb
    · exact execGetbit_outside hx
    · exact execGetbit_inside hx
    · exact execSetbit_outside hx
    · exact execSetbit_inside hx
    · simp only [execRotl, State.rotateLeft]; split <;> rfl
    · simp only [execRotr, State.rotateLeft]; split <;> rfl
  · simp only [issue, hw]; rfl

/-- The step of a command at the head of the inputs. -/
theorem step_presented {c : Command} {s t : State} (h : issue c s = .next t)
    (rest : List PortSample) :
    step { s with inputs := presents c :: rest } = .next { t with inputs := rest } :=
  issue_inputs h rest

end Sys2Proof.Machine
end

