-- ==== Sys2Proof/Laws/PerInstr.lean ====
section
/-! SUPPORT. One statement for every instruction of the set: its encoding has `rsv = 000`, `v = 0`
unless it is SETBIT, an opcode of 30_encoding.md R66, and fits the port whenever the instruction is
well formed. -/

namespace Sys2Proof.Laws.PortWord

/-- The encoding of `i` is a word R67 does not call illegal, and its data fits the port when `i` is
well formed for the instance. -/
def Statement (i : Instr) : Prop :=
  rsvField (encode i).word = 0 ∧
  (vField (encode i).word = true → opField (encode i).word = opSetbit) ∧
  1 ≤ (opField (encode i).word).toNat ∧ (opField (encode i).word).toNat ≤ 5 ∧
  ∀ n, i.wf n = true → (encode i).wf n = true

theorem load (bitLen : Arg) (data : Nat) : Statement (.load bitLen data) := by
  refine ⟨rsvField_wordOf .., ?_, ?_, ?_, fun n h => h⟩ <;>
    simp [encode, vField_wordOf, opField_wordOf, opLoad]

theorem getbit (i : Arg) : Statement (.getbit i) := by
  refine ⟨rsvField_wordOf .., ?_, ?_, ?_, fun n _ => ?_⟩ <;>
    simp [encode, vField_wordOf, opField_wordOf, opGetbit, Command.wf, dataFits]

theorem setbit (i : Arg) (v : Bool) : Statement (.setbit i v) := by
  refine ⟨rsvField_wordOf .., ?_, ?_, ?_, fun n _ => ?_⟩ <;>
    simp [encode, opField_wordOf, opSetbit, Command.wf, dataFits]

theorem rotl (k : Arg) : Statement (.rotl k) := by
  refine ⟨rsvField_wordOf .., ?_, ?_, ?_, fun n _ => ?_⟩ <;>
    simp [encode, vField_wordOf, opField_wordOf, opRotl, Command.wf, dataFits]

theorem rotr (k : Arg) : Statement (.rotr k) := by
  refine ⟨rsvField_wordOf .., ?_, ?_, ?_, fun n _ => ?_⟩ <;>
    simp [encode, vField_wordOf, opField_wordOf, opRotr, Command.wf, dataFits]

end Sys2Proof.Laws.PortWord
end

