-- ==== Sys2Proof/Tests/Slice0.lean ====
section
/-! SUPPORT. Tests on small buffers, expected results from 95_test_vectors.md (the vector's id stands
with each), and for every obligation with hypotheses a witness that meets them together. -/

namespace Sys2Proof.Tests

open Sys2Proof.Machine

/-- A buffer of `top + 1` bytes with nothing presented. -/
def buffer (top : TopByte) (len : Nat) (m : Memory) : State :=
  { State.resetOf top with usedBitLen := len, storage := m }

/-- `N = 2`, `[0xED, 0x1F]`, 13. -/
def ring13 : State := buffer 1 13 [(0, 0xED), (1, 0x1F)]

/-- `N = 2`, `[0xA1, 0x03]`, 16. -/
def ring16 : State := buffer 1 16 [(0, 0xA1), (1, 0x03)]

/-- `N = 2`, the empty buffer. -/
def empty2 : State := buffer 1 0 []

/-- Storage, length and response after an outcome. -/
def seen : Host.Outcome State Fault Refusal → Option (Memory × Nat × Option Response)
  | .next t => some (t.storage, t.usedBitLen, t.rsp)
  | .fault _ => none
  | .refused _ => none

/-- Response OK, no bit. -/
def okRsp : Option Response := some ⟨.ok, false⟩

/-! ### Well-formedness -/

theorem test_wf_accepts_full_port : (Instr.load 16 0xFFFF).wf 2 = true := by decide
theorem test_wf_refuses_wide_data : (Instr.load 16 0x10000).wf 2 = false := by decide
theorem test_wf_refuses_wide_command : Command.wf 2 ⟨0x1000000010, 0x10000⟩ = false := by decide

/-! ### Decoding: words written out from 30_encoding.md R60 and R66 -/

theorem test_decode_load :
    decode ⟨0b0001_000_0_00000000000000000000000000001101, 0xFFED⟩ = .instr (.load 13 0xFFED) := by
  decide
theorem test_decode_getbit :
    decode ⟨0b0010_000_0_00000000000000000000000000001100, 5⟩ = .instr (.getbit 12) := by decide
theorem test_decode_setbit_one :
    decode ⟨0b0011_000_1_00000000000000000000000000001100, 0⟩ = .instr (.setbit 12 true) := by decide
theorem test_decode_setbit_zero :
    decode ⟨0b0011_000_0_00000000000000000000000000000000, 0⟩ = .instr (.setbit 0 false) := by decide
theorem test_decode_rotl :
    decode ⟨0b0100_000_0_11111111111111111111111111111111, 0⟩ = .instr (.rotl 4294967295) := by
  decide
theorem test_decode_rotr :
    decode ⟨0b0101_000_0_00000000000000000000000001101001, 0⟩ = .instr (.rotr 105) := by decide
/-- V-I1, V-I2, V-I3. -/
theorem test_decode_unused_opcodes :
    decode ⟨0x0000000000, 0⟩ = .illegal .unusedOpcode ∧
    decode ⟨0x6000000000, 0⟩ = .illegal .unusedOpcode ∧
    decode ⟨0xF000000000, 0⟩ = .illegal .unusedOpcode := by decide
/-- V-I4, V-I5, V-I6, V-I7, V-I8. -/
theorem test_decode_stray_bits :
    decode ⟨0x4100000004, 0⟩ = .illegal .valueBit ∧
    decode ⟨0x2200000000, 0⟩ = .illegal .reservedBits ∧
    decode ⟨0x3800000000, 0⟩ = .illegal .reservedBits ∧
    decode ⟨0x71FFFFFFFF, 0⟩ = .illegal .valueBit ∧
    decode ⟨0x1100000000, 0⟩ = .illegal .valueBit := by decide
/-- The encoder on V-S1 and P4's words. -/
theorem test_encode_words :
    encode (.setbit 12 true) = ⟨0x310000000C, 0⟩ ∧ encode (.load 17 0xFFFF) = ⟨0x1000000011, 0xFFFF⟩ ∧
    encode (.rotr 255) = ⟨0x50000000FF, 0⟩ := by decide
/-- A table row with its data bits: bits above 39 are `cmd_data`. -/
theorem test_table_word :
    decodeTableWord 56 (0xFFED * 2 ^ 40 + 0x100000000D) = some (.load 13 0xFFED) ∧
    decodeTableWord 40 (0xFFED * 2 ^ 40 + 0x100000000D) = some (.load 13 0) ∧
    decodeTableWord 40 0 = none := by decide

/-! ### The five commands -/

/-- V-L3: the boundary byte keeps bits 0 to 4. -/
theorem test_load_masks :
    seen (exec (.load 13 0xFFED) ring16) = some ([(0, 0xED), (1, 0x1F)], 13, okRsp) := by decide
/-- V-L9: `arg` is not truncated to `LW` bits. -/
theorem test_load_exceeds :
    seen (exec (.load 45 0xFFFF) ring16) =
      some ([(0, 0xA1), (1, 0x03)], 16, some ⟨.capacityExceeded, false⟩) := by decide
/-- V-G8: the last bit of the ring. -/
theorem test_getbit_last :
    seen (exec (.getbit 12) ring13) =
      some ([(0, 0xED), (1, 0x1F)], 13, some ⟨.ok, true⟩) := by decide
/-- V-G9: a tail bit is not addressable. -/
theorem test_getbit_tail :
    seen (exec (.getbit 13) ring13) =
      some ([(0, 0xED), (1, 0x1F)], 13, some ⟨.indexOutOfRange, false⟩) := by decide
/-- V-S1. -/
theorem test_setbit_high :
    seen (exec (.setbit 12 true) (buffer 1 13 [(0, 0xED), (1, 0x03)])) =
      some ([(0, 0xED), (1, 0x13)], 13, okRsp) := by decide
/-- V-S7: `65536 mod 16 = 0` must not be used. -/
theorem test_setbit_wide_index :
    seen (exec (.setbit 65536 true) ring16) =
      some ([(0, 0xA1), (1, 0x03)], 16, some ⟨.indexOutOfRange, false⟩) := by decide
/-- V-R8: `(2^32 - 1) mod 13 = 8`. -/
theorem test_rotl_reduces :
    seen (exec (.rotl 4294967295) ring13) = some ([(0, 0xFF), (1, 0x0D)], 13, okRsp) := by decide
/-- V-R19: three bytes of four, little-endian. -/
theorem test_rotl_bytes :
    seen (exec (.rotl 104) (buffer 3 24 [(0, 0x68), (1, 0x5A), (2, 0x69)])) =
      some ([(0, 0x69), (1, 0x68), (2, 0x5A)], 24, okRsp) := by decide
/-- V-RR7: bit 0 wraps to bit 12. -/
theorem test_rotr_wraps :
    seen (exec (.rotr 1) ring13) = some ([(0, 0xF6), (1, 0x1F)], 13, okRsp) := by decide
/-- V-RR10: the empty ring. -/
theorem test_rotr_empty : seen (exec (.rotr 7) empty2) = some ([], 0, okRsp) := by decide

/-! ### Steps, reset, runs and ports -/

/-- V-Z1, with a LOAD beside the reset. -/
theorem test_step_reset :
    seen (step { ring13 with inputs := [⟨true, some ⟨0x1000000010, 0x03A1⟩⟩] }) =
      some ([], 0, none) := by decide
/-- V-I4: an illegal word leaves the buffer. -/
theorem test_step_illegal :
    seen (step (ring16.withFetchWord 40 0x4100000004)) =
      some ([(0, 0xA1), (1, 0x03)], 16, some ⟨.illegalCommand, false⟩) := by decide
/-- V-P2: truncation. -/
theorem test_pack_truncates :
    pack 2 [0x61, 0x11, 0x62] = .load 16 0x1161 ∧ packTruncates 2 [0x61, 0x11, 0x62] = true := by
  decide
/-- P3: `USEDBYTES = 3`, bytes 0 to 2; a 13-bit ring has one whole byte. -/
theorem test_readOut :
    readOut (buffer 3 24 [(0, 0x68), (1, 0x5A), (2, 0x69)]) = [0x68, 0x5A, 0x69] ∧
    readOut ring13 = [0xED] := by decide
/-- V-P4, V-P5, V-P8, V-P9. -/
theorem test_sched :
    sched 104 = .rotl 104 ∧ sched 105 = .rotr 105 ∧ schedInv 104 = .rotr 104 ∧
      schedInv 105 = .rotl 105 := by decide
/-- Three edges around a reset and an idle sample (R150, R153). -/
theorem test_ports_after_reset :
    outs (clocks [⟨true, true, 0x4000000004, 0⟩, ⟨false, false, 0, 0⟩] (.beforeReset 1)) =
      some ⟨true, false, none, none, some 0, some 0⟩ := by decide
/-- `LW` for N = 1, 2, 4, 32 (00_scope.md R5). -/
theorem test_lengthWidth :
    lengthWidth 1 = 4 ∧ lengthWidth 2 = 5 ∧ lengthWidth 4 = 6 ∧ lengthWidth 32 = 9 := by decide

/-! ### Witnesses: the hypotheses of each obligation hold together somewhere -/

/-- The state after an outcome that is a next state. -/
def after : Host.Outcome State Fault Refusal → State → State
  | .next t, _ => t
  | .fault _, s => s
  | .refused _, s => s

/-- `ring13` and `ring16` with one command presented. -/
def ring13Rotl : State := placeCommand ⟨0x4000000005, 0⟩ ring13
/-- See `ring13Rotl`. -/
def ring16Load : State := placeCommand ⟨0x100000000D, 0xFFED⟩ ring16

theorem witness_ring13_inv : ring13.Inv := by decide
theorem witness_ring16_inv : ring16.Inv ∧ ring16.usedBitLen = 8 * ring16.capacityBytes := by decide
/-- The smallest ring, `L = 1`, and a whole-byte ring below the capacity, `L = 8`, `N = 2`. -/
theorem witness_small_rings_inv :
    (buffer 0 1 [(0, 1)]).Inv ∧ (buffer 1 8 [(0, 0x96)]).Inv ∧ empty2.Inv := by decide

theorem witness_EncodeDecodeRoundTrip :
    decode ⟨0x100000000D, 0xFFED⟩ = .instr (.load 13 0xFFED) ∧
    decode ⟨0x310000000C, 7⟩ = .instr (.setbit 12 true) := by decide
theorem witness_StepRunsDecodedCommand :
    ring13Rotl.inputs = presents ⟨0x4000000005, 0⟩ :: [] ∧
    decode ⟨0x4000000005, 0⟩ = .instr (.rotl 5) ∧
    decodeTableWord 40 0x4000000005 = some (.rotl 5) := by decide
/-- One word for each reason, at the ends of the opcode range. -/
theorem witness_IllegalCommandAnswered :
    (0x0FFFFFFFFF#40).toNat / 2 ^ 36 = 0 ∧ 6 ≤ (0x6000000000#40).toNat / 2 ^ 36 ∧
    (0x5E00000000#40).toNat / 2 ^ 33 % 8 ≠ 0 ∧
    ((0x5100000000#40).toNat / 2 ^ 32 % 2 = 1 ∧ (0x5100000000#40).toNat / 2 ^ 36 ≠ 3) := by decide
theorem witness_ResetEventWins :
    ({ ring13 with inputs := [⟨true, some ⟨0x4000000005, 0⟩⟩] } : State).inputs =
      { rst := true, cmd := some ⟨0x4000000005, 0⟩ } :: [] := by decide
theorem witness_IdleStepKeepsBuffer :
    ring13.inputs = [] ∧
    ({ ring13 with inputs := [⟨false, none⟩] } : State).inputs = { rst := false, cmd := none } :: [] := by
  decide
theorem witness_EveryStepAnswers :
    ring13Rotl.inputs = presents ⟨0x4000000005, 0⟩ :: [] ∧
    ∀ c rest, ring13.inputs ≠ presents c :: rest :=
  ⟨rfl, fun _ _ => by simp [ring13, buffer, State.resetOf]⟩
theorem witness_StepKeepsInvariant :
    ring13Rotl.Inv ∧ step ring13Rotl = .next (after (step ring13Rotl) ring13Rotl) :=
  ⟨by decide, rfl⟩
/-- V-L3 from reset. -/
theorem witness_ReachableStatesAreMasked :
    Host.Core.run core 1 { State.resetOf 1 with inputs := [presents ⟨0x100000000D, 0xFFED⟩] } =
      .next { ring13 with rsp := okRsp } := rfl
/-- L = 13: byte 2 lies above the used bytes, bits 5 to 7 of byte 1 above the used bits (C1). -/
theorem witness_TailMaskedByteByByte :
    Memory.wf ring13.storage = true ∧ (ring13.usedBitLen + 7) / 8 ≤ 2 ∧ ring13.usedBitLen % 8 ≠ 0 ∧
    ring13.usedBitLen % 8 ≤ 5 := by decide
theorem witness_CapacityNeverChanges :
    step ring16Load = .next (after (step ring16Load) ring16Load) := rfl
/-- A rotation, a reset and a LOAD: one for each case. -/
theorem witness_LengthWrittenOnlyByLoadAndReset :
    step ring13Rotl = .next (after (step ring13Rotl) ring13Rotl) ∧
    step { ring13 with inputs := [⟨true, none⟩] } = .next (resetBlock ring13) ∧
    (after (step ring16Load) ring16Load).usedBitLen = 13 := ⟨rfl, rfl, by decide⟩
theorem witness_ObservationPortWidths :
    (1 : Nat) ≤ 1 ∧ 8 * 1 < 2 ^ 4 ∧ ring13.Inv ∧ ring13.bufLen ≤ 13 := by decide
/-- `bitLen = 8*N` and `bitLen = 0`. -/
theorem witness_LoadStoresMaskedData :
    (16 : Arg).toNat ≤ 8 * ring13.capacityBytes ∧ (0 : Arg).toNat ≤ 8 * ring13.capacityBytes := by
  decide
/-- `bitLen = 13`: byte 0 whole, byte 1 the boundary byte, byte 2 above. -/
theorem witness_LoadMasksByteByByte :
    (13 : Arg).toNat ≤ 8 * ring16.capacityBytes ∧ 0 < (13 : Arg).toNat / 8 ∧
    1 = (13 : Arg).toNat / 8 := by decide
/-- `bitLen = 8*N + 1`. -/
theorem witness_CapacityExceededExactly :
    8 * ring16.capacityBytes < (17 : Arg).toNat ∧
    issue ⟨0x1000000011, 0xFFFF⟩ ring16 =
      .next { ring16 with rsp := some ⟨.capacityExceeded, false⟩ } := ⟨by decide, rfl⟩
theorem witness_LoadIgnoresDataAboveLength :
    0xFFED % 2 ^ (13 : Arg).toNat = 0x1FED % 2 ^ (13 : Arg).toNat := by decide
theorem witness_LoadForgetsOldBuffer :
    ring16.topByte = ring13.topByte ∧ ring16.inputs = ring13.inputs ∧
    (16 : Arg).toNat ≤ 8 * ring16.capacityBytes := by decide
/-- `i = L`, for both commands. -/
theorem witness_IndexOutOfRangeExactly :
    ring13.usedBitLen ≤ (13 : Arg).toNat ∧
    issue ⟨0x200000000D, 0⟩ ring13 = .next { ring13 with rsp := some ⟨.indexOutOfRange, false⟩ } ∧
    issue ⟨0x310000000D, 0⟩ ring13 = .next { ring13 with rsp := some ⟨.indexOutOfRange, false⟩ } :=
  ⟨by decide, rfl, rfl⟩
/-- `i = L - 1`, the last index of a ring that ends inside a byte; for GETBIT, SETBIT and the frame. -/
theorem witness_bit_access_in_range :
    Memory.wf ring13.storage = true ∧ (12 : Arg).toNat < ring13.usedBitLen ∧
    byteIndex (scalar 12) ≠ 0 ∧ bitPosition (scalar 12) = 4 := by decide
theorem witness_GetbitAfterSetbit :
    Memory.wf ring13.storage = true ∧ (12 : Arg).toNat < ring13.usedBitLen ∧
    (0 : Arg).toNat < ring13.usedBitLen := by decide
/-- One failed command of each kind; for both statements about failed commands. -/
theorem witness_failed_commands :
    issue ⟨0x1000000011, 0⟩ ring16 = .next { ring16 with rsp := some ⟨.capacityExceeded, false⟩ } ∧
    issue ⟨0x2000000010, 0⟩ ring16 = .next { ring16 with rsp := some ⟨.indexOutOfRange, false⟩ } ∧
    issue ⟨0x0000000000, 0⟩ ring16 = .next { ring16 with rsp := some ⟨.illegalCommand, false⟩ } :=
  ⟨rfl, rfl, rfl⟩
theorem witness_ResponseBitOnlyFromGetbit :
    issue ⟨0x200000000C, 0⟩ ring13 = .next { ring13 with rsp := some ⟨.ok, true⟩ } := rfl
theorem witness_DataIgnoredOutsideLoad :
    (0x200000000C#40).toNat / 2 ^ 36 ≠ 1 ∧ (0x0000000000#40).toNat / 2 ^ 36 ≠ 1 := by decide
/-- Two states that differ in the response before and in what the host presents next. -/
theorem witness_CommandsReadOnlyTheBuffer :
    ring13.SameBuffer { ring13Rotl with rsp := okRsp } ∧
    ring13 ≠ { ring13Rotl with rsp := okRsp } := by decide
theorem witness_RotationsOfEmptyRing : empty2.usedBitLen = 0 := by decide
/-- A ring that ends inside a byte and the smallest one; for the statements about rotations. -/
theorem witness_rotations :
    ring13.Inv ∧ 0 < ring13.usedBitLen ∧ (buffer 0 1 [(0, 1)]).Inv ∧
    0 < (buffer 0 1 [(0, 1)]).usedBitLen := by decide
theorem witness_RotlByZeroOrLengthIsIdentity :
    ring13.Inv ∧ (0 : Arg).toNat = 0 ∧ (13 : Arg).toNat = ring13.usedBitLen ∧ empty2.Inv := by decide
/-- `5 + 12 = 17`, `17 mod 13 = 4`; `4 - 5` is `12` modulo 13. -/
theorem witness_RotationsCompose :
    ring13.Inv ∧ (4 : Arg).toNat ≡ (5 : Arg).toNat + (12 : Arg).toNat [MOD ring13.usedBitLen] ∧
    (12 : Arg).toNat + (5 : Arg).toNat ≡ (4 : Arg).toNat [MOD ring13.usedBitLen] ∧
    empty2.usedBitLen = 0 ∧
    exec (.rotl 12) ring13 = .next (after (exec (.rotl 12) ring13) ring13) ∧
    exec (.rotr 12) ring13 = .next (after (exec (.rotr 12) ring13) ring13) :=
  ⟨by decide, by decide, by decide, by decide, rfl, rfl⟩
theorem witness_RotationsKeepBitCount :
    ring13.Inv ∧ (Instr.rotl 5 = .rotl 5 ∨ Instr.rotl 5 = .rotr 5) ∧
    (Instr.rotr 5 = .rotl 5 ∨ Instr.rotr 5 = .rotr 5) := by decide
/-- `m = 1` below the capacity and `m = N`. -/
theorem witness_RotlIsNativeRotate :
    (buffer 1 8 [(0, 0x96)]).Inv ∧ 1 ≤ (buffer 1 8 [(0, 0x96)]).capacityBytes ∧
    (buffer 1 8 [(0, 0x96)]).usedBitLen = 8 * 1 ∧
    ring16.Inv ∧ 2 ≤ ring16.capacityBytes ∧ ring16.usedBitLen = 8 * 2 := by decide
theorem witness_CloneCopiesBuffer : ring13.Inv ∧ empty2.topByte = ring13.topByte := by decide
/-- As many edges after the accepting one as the free latency asks for. -/
theorem witness_AcceptedCommandIsAnswered :
    ∃ (p : Pins) (ps : List Pins), p.rst = false ∧ p.cmdValid = true ∧ (∀ q ∈ ps, q.rst = false) ∧
      ps.length = extraCycles ring13 ⟨p.cmdWord, p.cmdData⟩ :=
  ⟨⟨false, true, 0x4000000005, 0⟩,
    List.replicate (extraCycles ring13 ⟨0x4000000005, 0⟩) ⟨false, false, 0, 0⟩, rfl, rfl,
    fun _ h => by rw [List.eq_of_mem_replicate h], List.length_replicate⟩
/-- Reset in the middle of a command. -/
theorem witness_ResetEdgeWins :
    (⟨true, true, 0x4000000005, 0⟩ : Pins).rst = true ∧
    clock ⟨true, true, 0x4000000005, 0⟩ (.busy ring13 ⟨0x4000000004, 0⟩ 3) = .idle (resetBlock ring13) :=
  ⟨rfl, rfl⟩
/-- A legal buffer whose length is a whole number of bytes, and one whose is not. -/
theorem witness_ReadOutGivesUsedBytes :
    ring16.Inv ∧ ring16.usedBitLen % 8 = 0 ∧ ring13.Inv ∧ ring13.usedBitLen % 8 = 5 := by decide
/-- The first and the last command of a run of two. -/
theorem witness_RunAnswersEveryCommand :
    0 < [(⟨0x200000000C, 0⟩ : Command), ⟨0x200000000D, 0⟩].length ∧
    1 < [(⟨0x200000000C, 0⟩ : Command), ⟨0x200000000D, 0⟩].length := by decide
theorem witness_ReadyExactlyWhenIdle :
    outs (.idle ring13) = some ⟨true, false, none, none, some 0x1FED, some 13⟩ ∧
    outs (.busy ring13 ⟨0x4000000004, 0⟩ 3) = some ⟨false, false, none, none, none, none⟩ ∧
    (⟨false, true, 0x4000000005, 0⟩ : Pins).rst = (⟨false, false, 0, 0⟩ : Pins).rst ∧
    (⟨false, false, 0x4000000005, 0⟩ : Pins).rst = false ∧
    (⟨false, false, 0x4000000005, 0⟩ : Pins).cmdValid = false := by decide
theorem witness_ResponseStrobeLastsOneCycle :
    (⟨false, true, 0x4000000005, 0⟩ : Pins).rst = false ∧
    issue ⟨0x200000000C, 0⟩ ring13 = .next { ring13 with rsp := some ⟨.ok, true⟩ } := ⟨rfl, rfl⟩
/-- The premises of the statements over runs from `ring13`. -/
theorem witness_CommandsNeverChangeInputs :
    issue ⟨0x4000000005, 0⟩ ring13 = .next (after (exec (.rotl 5) ring13) ring13) ∧
    step ring13Rotl = .next (after (step ring13Rotl) ring13Rotl) := ⟨rfl, rfl⟩

end Sys2Proof.Tests
end

/-! Proofs of the statements of 00_scope.md: the widths of the ports, and the step of a decoded
command. -/

namespace Sys2Proof.Machine

/-! ### Widths of the observation ports -/

/-- A width is at least `LW` exactly when it holds every length up to `8*n` (00_scope.md R5). -/
theorem lengthWidth_le_iff {n w : Nat} (hn : 1 ≤ n) : lengthWidth n ≤ w ↔ 8 * n < 2 ^ w := by
  rw [lengthWidth, Nat.succ_le_iff, Nat.log2_lt (by omega)]

/-- `8*N` fits the 32 bits of `cap_bits` (10_state.md R23). -/
theorem capBits_toNat (s : State) : s.capBits.toNat = 8 * s.capacityBytes :=
  Nat.mod_eq_of_lt (capacityBits_lt s)

/-- `buf_len` of a legal buffer fits `LW` bits (10_state.md R30). -/
theorem bufLen_lt_two_pow_lengthWidth {s : State} (h : s.LengthInRange) :
    s.bufLen < 2 ^ lengthWidth s.capacityBytes :=
  calc s.bufLen
    _ ≤ 8 * s.capacityBytes := h
    _ < 2 ^ lengthWidth s.capacityBytes := (lengthWidth_le_iff (capacityBytes_range s).1).1 le_rfl

/-- `buf_data` of a legal buffer is zero at and above `buf_len` (10_state.md R24). -/
theorem testBit_bufData_of_bufLen_le {s : State} (h : s.TailMasked) {i : Nat} (hi : s.bufLen ≤ i) :
    s.bufData.testBit i = false :=
  Nat.testBit_lt_two_pow (lt_of_lt_of_le h (Nat.pow_le_pow_right Nat.two_pos hi))

/-- Settles O18: `lengthWidth_le_iff` is both halves of "least width", and the invariants bound the
ports. -/
theorem observationPortWidths : Obligations.ObservationPortWidths := by
  refine ⟨fun n hn => ⟨(lengthWidth_le_iff hn).1 le_rfl, fun w => (lengthWidth_le_iff hn).2⟩,
    fun s hs => ?_⟩
  have ⟨hlen, htail, _⟩ := hs
  exact ⟨bufLen_lt_two_pow_lengthWidth hlen, view_lt_capacity hs, capBits_toNat s,
    fun i => testBit_bufData_of_bufLen_le htail⟩

/-! ### The step of a presented command -/

/-- A presented command is accepted by the next step (70_reset_and_hazards.md R153). -/
theorem step_of_inputs_presents {s : State} {c : Command} {rest : List PortSample}
    (h : s.inputs = presents c :: rest) : step s = issue c { s with inputs := rest } := by
  rw [step, h]
  rfl

/-- A legal command runs as the instruction it decodes to (30_encoding.md R72). -/
theorem issue_of_decode_instr {c : Command} {i : Instr} (h : decode c = .instr i) (s : State) :
    issue c s = exec i s := by
  rw [issue, h]

/-- A table row's bits read as `i` exactly when the command they stand for decodes to `i`. -/
theorem decodeTableWord_eq_some_iff {nbits w : Nat} {i : Instr} :
    decodeTableWord nbits w = some i ↔ decode (tableCommand nbits w) = .instr i := by
  unfold decodeTableWord
  cases decode (tableCommand nbits w) <;> simp

/-- The step of a presented legal command is the meaning of what it decodes to (00_scope.md R11). -/
theorem step_of_presents_decoded {s : State} {c : Command} {i : Instr} {rest : List PortSample}
    (hin : s.inputs = presents c :: rest) (hdec : decode c = .instr i) :
    step s = exec i { s with inputs := rest } := by
  rw [step_of_inputs_presents hin, issue_of_decode_instr hdec]

/-- Settles O6: the step issues the head command, which decodes to `i`; `withFetchWord` puts the
table word's command at that head. -/
theorem stepRunsDecodedCommand : Obligations.StepRunsDecodedCommand := by
  refine ⟨fun s c i rest => step_of_presents_decoded, fun s nbits w i hw => ?_⟩
  have hin : (s.withFetchWord nbits w).inputs = presents (tableCommand nbits w) :: s.inputs :=
    placeCommand_inputs s (tableCommand nbits w)
  exact step_of_presents_decoded hin (decodeTableWord_eq_some_iff.1 hw)

end Sys2Proof.Machine


/-! Proofs of the statements of 10_state.md: the reset state, the invariants and what keeps them, the
two forms of tail masking, and what a command reads. -/

namespace Sys2Proof.Machine

/-! ### The invariants, update by update (10_state.md R26) -/

theorem resetOf_inv (top : TopByte) : (State.resetOf top).Inv :=
  ⟨Nat.zero_le _, Nat.one_pos, rfl⟩

theorem resetBlock_inv (s : State) : (resetBlock s).Inv := resetOf_inv s.topByte

/-- A masked load within the capacity leaves a legal buffer, whatever was there before. -/
theorem setView_mask_inv {s : State} {len : Nat} (d : Nat) (hlen : len ≤ s.capacityBits) :
    (State.setView (mask d len) { s with usedBitLen := len }).Inv := by
  refine ⟨hlen, ?_, setView_wf _ _⟩
  rw [State.TailMasked, view_setView]
  exact lt_of_le_of_lt (Nat.mod_le _ _) (mask_lt d len)

/-- A bit write inside the used length leaves a legal buffer. -/
theorem writeBit_inv {s : State} (h : s.Inv) {i : Nat} (v : Bool) (hi : i < s.usedBitLen) :
    ({ s with storage := writeBit s.storage i v } : State).Inv := by
  obtain ⟨hlen, htail, hwf⟩ := h
  have hwf' := writeBit_wf i v hwf
  refine ⟨hlen, Nat.lt_pow_two_of_testBit _ fun j hj => ?_, hwf'⟩
  calc (Memory.toNat (writeBit s.storage i v)).testBit j
    _ = readBit (writeBit s.storage i v) j := (readBit_eq_testBit hwf' j).symm
    _ = readBit s.storage j := by rw [readBit_writeBit hwf, if_neg (hi.trans_le hj).ne']
    _ = s.view.testBit j := readBit_eq_testBit hwf j
    _ = false := testBit_bufData_of_bufLen_le htail hj

/-! ### The invariants, command by command and step by step -/

theorem exec_inv {i : Instr} {s t : State} (hs : s.Inv) (h : exec i s = .next t) : t.Inv := by
  rcases exec_cases h with ⟨_, _, _, _, rfl⟩ | ⟨_, d, _, hb, rfl⟩ | ⟨_, _, _, rfl⟩ |
    ⟨_, _, _, rfl⟩ | ⟨_, _, _, _, rfl⟩ | ⟨_, v, _, hx, rfl⟩ | ⟨k, _, rfl⟩ | ⟨k, _, rfl⟩
  · exact hs
  · exact setView_mask_inv d hb
  · exact hs
  · exact hs
  · exact hs
  · exact writeBit_inv hs v hx
  · exact rotateLeft_inv hs _
  · split
    · exact hs
    · exact rotateLeft_inv hs _

theorem issue_inv {c : Command} {s t : State} (hs : s.Inv) (h : issue c s = .next t) : t.Inv := by
  rcases issue_cases h with ⟨_, _, h⟩ | ⟨_, _, rfl⟩
  · exact exec_inv hs h
  · exact hs

theorem step_inv {s t : State} (hs : s.Inv) (h : step s = .next t) : t.Inv := by
  rcases step_cases h with ⟨_, rfl⟩ | ⟨_, _, _, rfl⟩ | ⟨_, _, rfl⟩ | ⟨_, rest, _, h⟩
  · exact hs
  · exact resetBlock_inv _
  · exact hs
  · exact issue_inv (s := { s with inputs := rest }) hs h

/-- Settles O13: a wait keeps the buffer, a reset empties it, and a command keeps the invariants by
`exec_inv`. -/
theorem stepKeepsInvariant : Obligations.StepKeepsInvariant := fun _ _ => step_inv

/-! ### Tail masking, byte by byte -/

/-- Bit `p` of byte `j` is bit `8*j + p` of the integer view (20_memory.md R41). -/
theorem getLsbD_read {m : Memory} (hm : Memory.wf m = true) (j : Nat) {p : Nat} (hp : p < 8) :
    (Memory.read m j).getLsbD p = (Memory.toNat m).testBit (8 * j + p) := by
  rw [← readBit_eq_testBit hm, readBit, byteIndex, bitPosition,
    show (8 * j + p) / 8 = j by omega, show (8 * j + p) % 8 = p by omega]

/-- Both sides say that every bit at and above `L` is zero; the right one groups these bits into the
bytes above the used ones and the upper bits of the boundary byte (10_state.md R24). -/
theorem toNat_lt_two_pow_iff_bytes {m : Memory} (hm : Memory.wf m = true) (L : Nat) :
    Memory.toNat m < 2 ^ L ↔
      (∀ j, (L + 7) / 8 ≤ j → Memory.read m j = 0) ∧
      (L % 8 ≠ 0 → ∀ p, L % 8 ≤ p → p < 8 → (Memory.read m (L / 8)).getLsbD p = false) := by
  constructor
  · intro h
    have zero : ∀ i, L ≤ i → (Memory.toNat m).testBit i = false := fun i hi =>
      Nat.testBit_lt_two_pow (lt_of_lt_of_le h (Nat.pow_le_pow_right Nat.two_pos hi))
    refine ⟨fun j hj => BitVec.eq_of_getLsbD_eq fun p hp => ?_, fun _ p hp hp8 => ?_⟩
    · rw [getLsbD_read hm j hp, zero _ (by omega)]
      exact BitVec.getLsbD_zero.symm
    · rw [getLsbD_read hm _ hp8, zero _ (by omega)]
  · rintro ⟨hbytes, hbits⟩
    refine Nat.lt_pow_two_of_testBit _ fun i hi => ?_
    have hp : i % 8 < 8 := Nat.mod_lt _ (by decide)
    rw [← Nat.div_add_mod i 8, ← getLsbD_read hm _ hp]
    rcases Nat.lt_or_ge (i / 8) ((L + 7) / 8) with hj | hj
    · rw [show i / 8 = L / 8 by omega]
      exact hbits (by omega) _ (by omega) hp
    · rw [hbytes _ hj]
      exact BitVec.getLsbD_zero

/-- Settles O15: `toNat_lt_two_pow_iff_bytes` at the used length. -/
theorem tailMaskedByteByByte : Obligations.TailMaskedByteByByte :=
  fun s hs => toNat_lt_two_pow_iff_bytes hs s.usedBitLen

/-- Invariant B: the empty buffer holds only zero bytes (10_state.md R25). -/
theorem read_of_usedBitLen_zero {s : State} (h : s.Inv) (hlen : s.usedBitLen = 0) (j : Nat) :
    Memory.read s.storage j = 0 := by
  obtain ⟨_, htail, hwf⟩ := h
  exact ((toNat_lt_two_pow_iff_bytes hwf _).1 htail).1 j (by omega)

/-! ### Runs -/

/-- No step stops. -/
theorem step_answers (s : State) : ∃ t, step s = .next t := by
  unfold step
  split
  · exact ⟨_, rfl⟩
  · unfold takeSample
    split
    · exact ⟨_, rfl⟩
    · split
      · exact issue_answers _ _
      · exact ⟨_, rfl⟩

/-- What every step keeps, every run keeps. -/
theorem run_keeps {P : State → Prop} (hstep : ∀ s t, P s → step s = .next t → P t) {n : Nat}
    {s t : State} (hs : P s) (h : Host.Core.run core n s = .next t) : P t := by
  induction n generalizing s with
  | zero => exact Host.Outcome.next.inj h ▸ hs
  | succ n ih =>
    obtain ⟨u, hu⟩ := step_answers s
    rw [run_succ hu] at h
    exact ih (hstep s u hs hu) h

/-- Settles O14: the invariants hold at reset whatever is presented, and every step keeps them. -/
theorem reachableStatesAreMasked : Obligations.ReachableStatesAreMasked := by
  intro top ins n t h
  have hreset : ({ State.resetOf top with inputs := ins } : State).Inv := resetOf_inv top
  have ht : t.Inv := run_keeps stepKeepsInvariant hreset h
  have ⟨hlen, htail, _⟩ := ht
  exact ⟨hlen, htail, read_of_usedBitLen_zero ht⟩

/-! ### What a step leaves of the capacity and the length -/

theorem step_topByte {s t : State} (h : step s = .next t) : t.topByte = s.topByte := by
  rcases step_cases h with ⟨_, rfl⟩ | ⟨_, _, _, rfl⟩ | ⟨_, _, rfl⟩ | ⟨_, _, _, h⟩
  · rfl
  · rfl
  · rfl
  · exact (issue_ports h).2.1

/-- Settles O16: the capacity is a function of the build parameter, which no step writes. -/
theorem capacityNeverChanges : Obligations.CapacityNeverChanges := by
  intro s t h
  have hbytes : t.capacityBytes = s.capacityBytes := by
    rw [State.capacityBytes, step_topByte h, State.capacityBytes]
  exact ⟨hbytes, by simp only [State.capBits, State.capacityBits, hbytes]⟩

/-- The only command that writes the length is a LOAD within the capacity (10_state.md R22). -/
theorem exec_usedBitLen {i : Instr} {s t : State} (h : exec i s = .next t) :
    t.usedBitLen = s.usedBitLen ∨
    ∃ b d, i = .load b d ∧ b.toNat ≤ s.capacityBits ∧ t.rsp = some ⟨.ok, false⟩ ∧
      t.usedBitLen = b.toNat := by
  rcases exec_cases h with ⟨_, _, _, _, rfl⟩ | ⟨b, d, hi, hb, rfl⟩ | ⟨_, _, _, rfl⟩ |
    ⟨_, _, _, rfl⟩ | ⟨_, _, _, _, rfl⟩ | ⟨_, _, _, _, rfl⟩ | ⟨_, _, rfl⟩ | ⟨_, _, rfl⟩
  case inr.inl => exact .inr ⟨b, d, hi, hb, rfl, rfl⟩
  case inr.inr.inr.inr.inr.inr.inr => left; split <;> simp
  all_goals left; simp

/-- Settles O17: a wait and an illegal word keep the length, a reset clears it, and `exec_usedBitLen`
says what the five commands do. -/
theorem lengthWrittenOnlyByLoadAndReset : Obligations.LengthWrittenOnlyByLoadAndReset := by
  intro s t h
  rcases step_cases h with ⟨_, rfl⟩ | ⟨c, rest, hin, rfl⟩ | ⟨_, _, rfl⟩ | ⟨c, rest, hin, h⟩
  · exact .inl rfl
  · exact .inr (.inl ⟨c, rest, hin, rfl⟩)
  · exact .inl rfl
  · rcases issue_cases h with ⟨i, hdec, h⟩ | ⟨_, _, rfl⟩
    · rcases exec_usedBitLen h with hlen | ⟨b, d, rfl, hb, hrsp, hlen⟩
      · exact .inl hlen
      · exact .inr (.inr ⟨c, rest, b, d, hin, hdec, hb, hrsp, hlen⟩)
    · exact .inl rfl

/-! ### What a command reads -/

/-- A rotation looks only at the buffer, not at the response beside it. -/
theorem rotateLeft_withRsp (s : State) (k : Nat) (r : Option Response) :
    State.rotateLeft k { s with rsp := r } = { s.rotateLeft k with rsp := r } := by
  unfold State.rotateLeft
  split <;> rfl

/-- The response that stood before a command has no part in it: the command overwrites it. -/
theorem exec_withRsp (i : Instr) (s : State) (r : Option Response) :
    exec i { s with rsp := r } = exec i s := by
  cases i with
  | load b d => rfl
  | getbit x => rfl
  | setbit x v => rfl
  | rotl k => simp only [exec, execRotl, rotateLeft_withRsp, respond]
  | rotr k =>
    simp only [exec, execRotr, rotateLeft_withRsp]
    split <;> rfl

theorem issue_withRsp (c : Command) (s : State) (r : Option Response) :
    issue c { s with rsp := r } = issue c s := by
  unfold issue
  cases decode c with
  | instr i => exact exec_withRsp i s r
  | illegal why => rfl

/-- States with the same buffer differ in the response and the inputs alone. -/
theorem eq_of_sameBuffer {s s' : State} (h : s.SameBuffer s') :
    s' = { s with rsp := s'.rsp, inputs := s'.inputs } := by
  obtain ⟨htop, hlen, hmem⟩ := h
  rw [htop, hlen, hmem]

/-- Settles O34: a command neither reads the old response (`issue_withRsp`) nor the inputs, which it
passes on (`issue_inputs`). -/
theorem commandsReadOnlyTheBuffer : Obligations.CommandsReadOnlyTheBuffer := by
  intro s s' c hsame
  obtain ⟨t, ht⟩ := issue_answers c s
  have ht' : issue c s' = .next { t with inputs := s'.inputs } := by
    rw [eq_of_sameBuffer hsame]
    exact issue_inputs ((issue_withRsp c s s'.rsp).trans ht) s'.inputs
  exact ⟨t, _, ht, ht', ⟨rfl, rfl, rfl⟩, rfl⟩

/-! ### The reset state -/

/-- Settles O11: the zero bytes are Invariant B of the reset state, and `cap_bits` does not wrap. -/
theorem resetStateValues : Obligations.ResetStateValues := fun top =>
  ⟨rfl, read_of_usedBitLen_zero (resetOf_inv top) rfl, rfl, rfl, capBits_toNat (State.resetOf top),
    rfl, rfl⟩

/-- Settles O12: `State.reset` is the reset state for `Config.topByte`. -/
theorem resetStateInvariant : Obligations.ResetStateInvariant :=
  ⟨resetOf_inv, resetOf_inv Config.topByte⟩

end Sys2Proof.Machine

/-! Proofs of the statements of 20_memory.md: a bit read after a bit write, and the commands still to
come. -/

namespace Sys2Proof.Machine

/-! ### GETBIT after SETBIT -/

/-- Settles O28: SETBIT keeps the length, so `j` is in range still, and `readBit_writeBit` says what
the bit write leaves at `j`. -/
theorem getbitAfterSetbit : Obligations.GetbitAfterSetbit := by
  intro s i j v hwf hi hj
  refine ⟨_, _, _, execSetbit_inside hi, execGetbit_inside hj, execGetbit_inside hj, rfl, ?_⟩
  simp only [respond_rsp, respond_storage, readBit_writeBit hwf, BitVec.toNat_inj]
  by_cases hij : j = i
  · rw [if_pos hij, if_pos hij]
  · rw [if_neg hij, if_neg hij]

/-! ### What the block executes next -/

theorem issue_keeps_inputs {c : Command} {s t : State} (h : issue c s = .next t) :
    t.inputs = s.inputs := (issue_ports h).1

/-- A step takes the next sample off and leaves the others (20_memory.md R49). -/
theorem step_inputs {s t : State} (h : step s = .next t) : t.inputs = s.inputs.tail := by
  rcases step_cases h with ⟨hin, rfl⟩ | ⟨_, _, hin, rfl⟩ | ⟨_, hin, rfl⟩ | ⟨_, _, hin, h⟩
  · simp [hin]
  · simp [hin]
  · simp [hin]
  · simp [hin, issue_keeps_inputs h]

/-- Settles O35: no command writes the inputs, and a step only drops their head. -/
theorem commandsNeverChangeInputs : Obligations.CommandsNeverChangeInputs :=
  ⟨fun _ _ _ => issue_keeps_inputs, fun _ _ => step_inputs⟩

end Sys2Proof.Machine

/-! Proofs of the statements of 30_encoding.md: the round trips of the decoder, the opcode map, the
illegal words, and what a response says. -/

namespace Sys2Proof

/-! ### Words and their fields -/

theorem opField_eq_iff {w : CmdWord} {op : BitVec 4} :
    opField w = op ↔ w.toNat / 2 ^ 36 = op.toNat := by
  rw [← opField_toNat, BitVec.toNat_inj]

theorem rsvField_eq_zero_iff {w : CmdWord} : rsvField w = 0 ↔ w.toNat / 2 ^ 33 % 8 = 0 := by
  rw [← rsvField_toNat, BitVec.toNat_eq]
  rfl

theorem vField_eq_true_iff {w : CmdWord} : vField w = true ↔ w.toNat / 2 ^ 32 % 2 = 1 := by
  rw [← vField_toNat, Bool.toNat_eq_one]

theorem argField_eq_ofNat (w : CmdWord) : argField w = BitVec.ofNat 32 (w.toNat % 2 ^ 32) := by
  rw [← argField_toNat, BitVec.ofNat_toNat, BitVec.setWidth_eq]

/-- A word with `rsv = 000` is made of its other fields (30_encoding.md R60). -/
theorem wordOf_of_fields {w : CmdWord} {op : BitVec 4} {v : Bool} (hrsv : rsvField w = 0)
    (hop : opField w = op) (hv : vField w = v) : wordOf op v (argField w) = w := by
  rw [rsvField_eq_zero_iff] at hrsv
  apply BitVec.eq_of_toNat_eq
  rw [wordOf_toNat, ← hop, ← hv, opField_toNat, vField_toNat, argField_toNat]
  omega

/-! ### Legal words -/

/-- The words that 30_encoding.md R67 leaves legal, by their fields. -/
def LegalWord (w : CmdWord) : Prop :=
  rsvField w = 0 ∧ (vField w = true → opField w = opSetbit) ∧
  1 ≤ (opField w).toNat ∧ (opField w).toNat ≤ 5

theorem encode_legalWord (i : Instr) : LegalWord (encode i).word := by
  have port : Laws.PortWord.Statement i := by
    cases i with
    | load b d => exact Laws.PortWord.load b d
    | getbit x => exact Laws.PortWord.getbit x
    | setbit x v => exact Laws.PortWord.setbit x v
    | rotl k => exact Laws.PortWord.rotl k
    | rotr k => exact Laws.PortWord.rotr k
  obtain ⟨hrsv, hv, hlo, hhi, _⟩ := port
  exact ⟨hrsv, hv, hlo, hhi⟩

/-- The causes of 30_encoding.md R67, read off the word as a number. -/
theorem not_legalWord_iff {w : CmdWord} :
    ¬ LegalWord w ↔
      w.toNat / 2 ^ 36 = 0 ∨ 6 ≤ w.toNat / 2 ^ 36 ∨ w.toNat / 2 ^ 33 % 8 ≠ 0 ∨
        (w.toNat / 2 ^ 32 % 2 = 1 ∧ w.toNat / 2 ^ 36 ≠ 3) := by
  have hop : opSetbit.toNat = 3 := rfl
  rw [LegalWord, rsvField_eq_zero_iff, vField_eq_true_iff, opField_eq_iff, opField_toNat, hop]
  omega

/-! ### The decoder -/

/-- `i` takes the data operand of `c` where it has one, that is, for LOAD (30_encoding.md R65). -/
def TakesData (i : Instr) (c : Command) : Prop := ∀ b d, i = .load b d → d = c.data

theorem takesData_load (b : Arg) (c : Command) : TakesData (.load b c.data) c :=
  fun _ _ h => (Instr.load.inj h).2.symm

/-- An encoded word decodes by its opcode and `v`, whatever stands on `cmd_data`. -/
theorem decode_wordOf (op : BitVec 4) (v : Bool) (arg : Arg) (d : Nat) :
    decode ⟨wordOf op v arg, d⟩ =
      if op = opSetbit then .instr (.setbit arg v)
      else if v then .illegal .valueBit
      else if op = opLoad then .instr (.load arg d)
      else if op = opGetbit then .instr (.getbit arg)
      else if op = opRotl then .instr (.rotl arg)
      else if op = opRotr then .instr (.rotr arg)
      else .illegal .unusedOpcode := by
  simp only [decode, rsvField_wordOf, opField_wordOf, vField_wordOf, argField_wordOf, ne_eq,
    not_true_eq_false, if_false]

/-- A command with the word of `encode i`, and the data of `i` where it has any, decodes to `i`. -/
theorem decode_of_word_eq_encode {c : Command} {i : Instr} (hword : (encode i).word = c.word)
    (hdata : TakesData i c) : decode c = .instr i := by
  obtain ⟨w, d⟩ := c
  subst hword
  cases i with
  | load b d' => rw [hdata b d' rfl]; exact decode_wordOf opLoad false b d
  | getbit x => exact decode_wordOf opGetbit false x d
  | setbit x v => exact decode_wordOf opSetbit v x d
  | rotl k => exact decode_wordOf opRotl false k d
  | rotr k => exact decode_wordOf opRotr false k d

/-- The opcodes of the five rows of 30_encoding.md R66, as a range. -/
theorem eq_row_of_op_range : ∀ op : BitVec 4, 1 ≤ op.toNat → op.toNat ≤ 5 →
    op = opLoad ∨ op = opGetbit ∨ op = opSetbit ∨ op = opRotl ∨ op = opRotr := by
  decide

/-- Everything the decoder can answer: an illegal word is one of 30_encoding.md R67, and a command
decoded to `i` has the word of `encode i`. -/
theorem decode_cases (c : Command) :
    (∃ why, decode c = .illegal why ∧ ¬ LegalWord c.word) ∨
    (∃ i, decode c = .instr i ∧ (encode i).word = c.word ∧ TakesData i c) := by
  unfold decode
  split_ifs with hrsv hset hv hload hget hrotl hrotr
  · exact .inl ⟨_, rfl, fun ⟨h, _⟩ => hrsv h⟩
  · exact .inr ⟨_, rfl, wordOf_of_fields (not_not.1 hrsv) hset rfl, nofun⟩
  · exact .inl ⟨_, rfl, fun ⟨_, h, _⟩ => hset (h hv)⟩
  · exact .inr ⟨_, rfl, wordOf_of_fields (not_not.1 hrsv) hload (Bool.eq_false_of_not_eq_true hv),
      takesData_load _ c⟩
  · exact .inr ⟨_, rfl, wordOf_of_fields (not_not.1 hrsv) hget (Bool.eq_false_of_not_eq_true hv),
      nofun⟩
  · exact .inr ⟨_, rfl, wordOf_of_fields (not_not.1 hrsv) hrotl (Bool.eq_false_of_not_eq_true hv),
      nofun⟩
  · exact .inr ⟨_, rfl, wordOf_of_fields (not_not.1 hrsv) hrotr (Bool.eq_false_of_not_eq_true hv),
      nofun⟩
  · refine .inl ⟨_, rfl, fun ⟨_, _, hlo, hhi⟩ => ?_⟩
    have hrow := eq_row_of_op_range _ hlo hhi
    simp only [hload, hget, hset, hrotl, hrotr, or_self] at hrow

/-- The decoder and the encoder agree on the word, and on the data that is an operand. -/
theorem decode_eq_instr_iff {c : Command} {i : Instr} :
    decode c = .instr i ↔ (encode i).word = c.word ∧ TakesData i c := by
  refine ⟨fun h => ?_, fun ⟨hword, hdata⟩ => decode_of_word_eq_encode hword hdata⟩
  rcases decode_cases c with ⟨_, hill, _⟩ | ⟨j, hj, hword, hdata⟩
  · simp [h] at hill
  · obtain rfl : i = j := Decoded.instr.inj (h.symm.trans hj)
    exact ⟨hword, hdata⟩

/-- Once the data operand agrees, the word alone decides what a command decodes to. -/
theorem word_eq_encode_iff {c : Command} {i : Instr} (hdata : TakesData i c) :
    (encode i).word = c.word ↔ decode c = .instr i := by
  rw [decode_eq_instr_iff, and_iff_left hdata]

theorem decode_illegal_iff {c : Command} :
    (∃ why, decode c = .illegal why) ↔ ¬ LegalWord c.word := by
  rcases decode_cases c with ⟨why, hill, hnot⟩ | ⟨i, hi, hword, _⟩
  · exact ⟨fun _ => hnot, fun _ => ⟨why, hill⟩⟩
  · have hlegal : LegalWord c.word := hword ▸ encode_legalWord i
    simp [hi, hlegal]

/-- `cmd_data` reaches the decoder's answer through LOAD alone (30_encoding.md R65). -/
theorem decode_data_irrelevant {w : CmdWord} (h : opField w ≠ opLoad) (d d' : Nat) :
    decode ⟨w, d⟩ = decode ⟨w, d'⟩ := by
  simp only [decode, if_neg h]

/-! ### Round trips and illegal words -/

/-- Settles O2: the word and the data are those of the encoder (`decode_of_word_eq_encode`). -/
theorem decodeEncodeRoundTrip : Obligations.DecodeEncodeRoundTrip := fun i =>
  decode_of_word_eq_encode rfl fun b d hi => by rw [hi, encode]

/-- Settles O3: `decode_eq_instr_iff` from left to right. -/
theorem encodeDecodeRoundTrip : Obligations.EncodeDecodeRoundTrip := by
  intro c i h
  obtain ⟨hword, hdata⟩ := decode_eq_instr_iff.1 h
  refine ⟨hword, ?_⟩
  rintro ⟨b, d, rfl⟩
  exact hdata b d rfl

/-- Settles O5: the decoder refuses the words that are not legal, whose causes `not_legalWord_iff`
reads off as numbers. -/
theorem illegalWordsExactly : Obligations.IllegalWordsExactly := fun _ =>
  decode_illegal_iff.trans not_legalWord_iff

/-! ### The opcode map -/

/-- A mask of the bits from `n` up clears the bits below `n`. -/
theorem toNat_and_allOnes_shiftLeft (w : CmdWord) (n : Nat) :
    (w &&& BitVec.allOnes 40 <<< n).toNat = w.toNat / 2 ^ n * 2 ^ n := by
  rw [← BitVec.shiftLeft_ushiftRight, BitVec.toNat_shiftLeft, BitVec.toNat_ushiftRight,
    Nat.shiftRight_eq_div_pow, Nat.shiftLeft_eq]
  exact Nat.mod_eq_of_lt ((Nat.div_mul_le_self _ _).trans_lt w.isLt)

/-- The mask `0xFF00000000` selects on `op`, `rsv` and `v` (30_encoding.md R66). -/
theorem and_maskV_eq_iff (w : CmdWord) (op : BitVec 4) :
    w &&& 0xFF00000000#40 = wordOf op false 0 ↔ wordOf op false (argField w) = w := by
  have hmask : 0xFF00000000#40 = BitVec.allOnes 40 <<< 32 := by decide
  have hzero : (0 : Arg).toNat = 0 := rfl
  rw [hmask, ← BitVec.toNat_inj, ← BitVec.toNat_inj, toNat_and_allOnes_shiftLeft, wordOf_toNat,
    wordOf_toNat, argField_toNat]
  rw [Bool.toNat_false, hzero]
  omega

/-- The mask `0xFE00000000` of SETBIT selects on `op` and `rsv` and leaves `v` free
(30_encoding.md R66). -/
theorem and_maskRsv_eq_iff (w : CmdWord) (op : BitVec 4) :
    w &&& 0xFE00000000#40 = wordOf op false 0 ↔ wordOf op (vField w) (argField w) = w := by
  have hmask : 0xFE00000000#40 = BitVec.allOnes 40 <<< 33 := by decide
  have hzero : (0 : Arg).toNat = 0 := rfl
  rw [hmask, ← BitVec.toNat_inj, ← BitVec.toNat_inj, toNat_and_allOnes_shiftLeft, wordOf_toNat,
    wordOf_toNat, argField_toNat, vField_toNat]
  rw [Bool.toNat_false, hzero]
  omega

/-- Settles O4: a row's mask and match say that the word is the encoding of the row's command with
the operands read off the word. -/
theorem opcodeMapMaskMatch : Obligations.OpcodeMapMaskMatch := by
  intro c arg
  have harg : arg = argField c.word := (argField_eq_ofNat c.word).symm
  rw [harg]
  exact ⟨(and_maskV_eq_iff c.word opLoad).trans (word_eq_encode_iff (takesData_load _ c)),
    (and_maskV_eq_iff c.word opGetbit).trans (word_eq_encode_iff (i := .getbit _) nofun),
    (and_maskRsv_eq_iff c.word opSetbit).trans (word_eq_encode_iff (i := .setbit _ _) nofun),
    (and_maskV_eq_iff c.word opRotl).trans (word_eq_encode_iff (i := .rotl _) nofun),
    (and_maskV_eq_iff c.word opRotr).trans (word_eq_encode_iff (i := .rotr _) nofun)⟩

/-! ### Words of the spec -/

/-- Settles O1: the decoder evaluated on each word. -/
theorem specWordsDecode : Obligations.SpecWordsDecode := by
  unfold Obligations.SpecWordsDecode
  decide

end Sys2Proof

namespace Sys2Proof.Machine

/-! ### Responses -/

/-- Of the five commands only GETBIT in range can answer 1. -/
theorem exec_rsp_bit_true {i : Instr} {s t : State} {st : Status} (h : exec i s = .next t)
    (hrsp : t.rsp = some ⟨st, true⟩) :
    st = .ok ∧ ∃ x, i = .getbit x ∧ x.toNat < s.usedBitLen := by
  rcases exec_cases h with ⟨_, _, _, _, rfl⟩ | ⟨_, _, _, _, rfl⟩ | ⟨_, _, _, rfl⟩ |
    ⟨x, hi, hx, rfl⟩ | ⟨_, _, _, _, rfl⟩ | ⟨_, _, _, _, rfl⟩ | ⟨_, _, rfl⟩ | ⟨_, _, rfl⟩
  case inr.inr.inr.inl =>
    exact ⟨(Response.mk.inj (Option.some.inj hrsp)).1.symm, x, hi, hx⟩
  all_goals simp at hrsp

/-- Settles O31: an illegal word is answered with bit 0, and `exec_rsp_bit_true` says which of the
five commands is not. -/
theorem responseBitOnlyFromGetbit : Obligations.ResponseBitOnlyFromGetbit := by
  intro s t c st h hrsp
  rcases issue_cases h with ⟨i, hdec, h⟩ | ⟨_, _, rfl⟩
  · obtain ⟨hst, x, rfl, hx⟩ := exec_rsp_bit_true h hrsp
    exact ⟨hst, x, hdec, hx⟩
  · simp at hrsp

/-- Settles O32: a command acts through what it decodes to, where the data has no part. -/
theorem dataIgnoredOutsideLoad : Obligations.DataIgnoredOutsideLoad := by
  intro s w d d' hw
  have hop : opField w ≠ opLoad := fun h => hw (opField_eq_iff.1 h)
  rw [issue, issue, decode_data_irrelevant hop d d']

/-- Settles O33: the codes are read off the table, and two equal codes are of one status. -/
theorem statusCodesAsListed : Obligations.StatusCodesAsListed := by
  refine ⟨rfl, rfl, rfl, rfl, fun a b => ?_⟩
  cases a <;> cases b <;> decide

end Sys2Proof.Machine

/-! Proofs of the statements of 40_buffer_control.md: what LOAD stores, and the bit that GETBIT reads
and SETBIT writes. -/

namespace Sys2Proof.Machine

/-! ### The whole result of a LOAD -/

/-- Nothing of `s` but the instance and the inputs is in the result (40_buffer_control.md R80). -/
theorem exec_load_of_le {s : State} {b : Arg} {d : Nat} (h : b.toNat ≤ s.capacityBits) :
    exec (.load b d) s =
      .next { topByte := s.topByte
              usedBitLen := b.toNat
              storage := Memory.ofNat s.capacityBytes (mask d b.toNat)
              rsp := some ⟨.ok, false⟩
              inputs := s.inputs } :=
  execLoad_fits h

/-- Data masked to a length within the capacity is stored whole. -/
theorem toNat_ofNat_mask {n len : Nat} (d : Nat) (h : len ≤ 8 * n) :
    Memory.toNat (Memory.ofNat n (mask d len)) = mask d len := by
  rw [toNat_ofNat, Nat.mod_eq_of_lt]
  exact (mask_lt d len).trans_le (Nat.pow_le_pow_right Nat.two_pos h)

theorem read_ofNat_mask {n len : Nat} (d : Nat) (h : len ≤ 8 * n) (j : Nat) :
    Memory.read (Memory.ofNat n (mask d len)) j = BitVec.ofNat 8 (mask d len / 2 ^ (8 * j)) := by
  rw [read_eq_div (ofNat_wf _ _), toNat_ofNat_mask d h]

/-- Settles O19: the LOAD stores its masked data (`exec_load_of_le`), which the registers hold
whole. -/
theorem loadStoresMaskedData : Obligations.LoadStoresMaskedData := fun _ _ d hb =>
  ⟨_, exec_load_of_le hb, rfl, toNat_ofNat_mask d hb, read_ofNat_mask d hb, ofNat_wf _ _, rfl, rfl,
    rfl⟩

/-- Settles O22: LOAD uses its data through the mask alone. -/
theorem loadIgnoresDataAboveLength : Obligations.LoadIgnoresDataAboveLength := by
  intro s b d d' h
  have hmask : mask d (scalar b) = mask d' (scalar b) := h
  change execLoad b d s = execLoad b d' s
  rw [execLoad, execLoad, hmask]

/-- Settles O23: the result in `exec_load_of_le` names the instance and the inputs of the old state
and nothing more. -/
theorem loadForgetsOldBuffer : Obligations.LoadForgetsOldBuffer := by
  intro s s' b d htop hin hb
  have hbytes : s.capacityBytes = s'.capacityBytes := by
    rw [State.capacityBytes, htop, State.capacityBytes]
  have hb' : b.toNat ≤ s'.capacityBits := by rwa [State.capacityBits, ← hbytes]
  rw [exec_load_of_le hb, exec_load_of_le hb', hbytes, htop, hin]

/-! ### The bytes of masked data -/

/-- The bits of a mask from position `i` up are a mask of what stands there (00_scope.md R8). -/
theorem mask_div_two_pow (d : Nat) {i L : Nat} (h : i ≤ L) :
    mask d L / 2 ^ i = d / 2 ^ i % 2 ^ (L - i) := by
  rw [mask, ← Nat.mod_mul_right_div_self, ← Nat.pow_add, Nat.add_sub_cancel' h]

/-- A mask of eight bits or more leaves the low byte as it is. -/
theorem ofNat_mod_two_pow (x : Nat) {m : Nat} (h : 8 ≤ m) :
    BitVec.ofNat 8 (x % 2 ^ m) = BitVec.ofNat 8 x :=
  BitVec.eq_of_toNat_eq (Nat.mod_mod_of_dvd x (Nat.pow_dvd_pow 2 h))

/-- Byte `j` of masked data, below the boundary byte, at it and above it (40_buffer_control.md
R80 (a) to (d)). -/
theorem ofNat_mask_div (d L j : Nat) :
    BitVec.ofNat 8 (mask d L / 2 ^ (8 * j)) =
      if j < L / 8 then BitVec.ofNat 8 (d / 2 ^ (8 * j))
      else if j = L / 8 then BitVec.ofNat 8 (d / 2 ^ (8 * j) % 2 ^ (L % 8))
      else 0 := by
  split_ifs with hbelow hat
  · rw [mask_div_two_pow d (by omega), ofNat_mod_two_pow _ (by omega)]
  · rw [mask_div_two_pow d (by omega), show L - 8 * j = L % 8 by omega]
  · have hlt : mask d L < 2 ^ (8 * j) :=
      (mask_lt d L).trans_le (Nat.pow_le_pow_right Nat.two_pos (by omega))
    rw [Nat.div_eq_of_lt hlt]
    rfl

/-- Settles O20: the registers hold the bytes of the masked data, which `ofNat_mask_div` lists. -/
theorem loadMasksByteByByte : Obligations.LoadMasksByteByByte := fun _ b d hb =>
  ⟨_, exec_load_of_le hb, fun j => (read_ofNat_mask d hb j).trans (ofNat_mask_div d b.toNat j)⟩

/-! ### GETBIT -/

/-- Settles O25: the answer is the addressed bit of its byte by definition, and
`readBit_eq_testBit` finds it in the integer view. -/
theorem getbitReadsAddressedBit : Obligations.GetbitReadsAddressedBit := by
  intro s i hwf hi
  refine ⟨_, execGetbit_inside hi, ?_, rfl⟩
  rw [readBit_eq_testBit hwf, Nat.toNat_testBit]
  rfl

/-! ### The integer view after a bit write -/

/-- A number is what stands above bit `i`, bit `i`, and what stands below it. -/
theorem eq_high_add_bit_add_low (x i : Nat) :
    x = x / 2 ^ (i + 1) * 2 ^ (i + 1) + x / 2 ^ i % 2 * 2 ^ i + x % 2 ^ i := by
  have hmod : x % 2 ^ (i + 1) = x % 2 ^ i + 2 ^ i * (x / 2 ^ i % 2) := Nat.mod_pow_succ
  have hx := Nat.div_add_mod' x (2 ^ (i + 1))
  rw [hmod, Nat.mul_comm (2 ^ i)] at hx
  omega

/-- Numbers that agree off bit `i` share the parts above and below it, so they differ by their
`i`-th bits. -/
theorem eq_sub_bit_add_bit {x y i : Nat} (h : ∀ j, j ≠ i → y.testBit j = x.testBit j) :
    y = x - x / 2 ^ i % 2 * 2 ^ i + (y.testBit i).toNat * 2 ^ i := by
  have hhigh : y / 2 ^ (i + 1) = x / 2 ^ (i + 1) := Nat.eq_of_testBit_eq fun j => by
    rw [Nat.testBit_div_two_pow, Nat.testBit_div_two_pow, h _ (by omega)]
  have hlow : y % 2 ^ i = x % 2 ^ i := Nat.eq_of_testBit_eq fun j => by
    rw [Nat.testBit_mod_two_pow, Nat.testBit_mod_two_pow]
    by_cases hj : j < i
    · rw [h j hj.ne]
    · rw [decide_eq_false hj, Bool.false_and, Bool.false_and]
  have hx := eq_high_add_bit_add_low x i
  have hy := eq_high_add_bit_add_low y i
  rw [hhigh, hlow, ← Nat.toNat_testBit y] at hy
  omega

/-- `S - bit(S,i)*2^i + v*2^i` of 40_buffer_control.md R82: `readBit_writeBit` in the integer view. -/
theorem toNat_writeBit {m : Memory} (hm : Memory.wf m = true) (i : Nat) (v : Bool) :
    Memory.toNat (writeBit m i v) =
      Memory.toNat m - Memory.toNat m / 2 ^ i % 2 * 2 ^ i + v.toNat * 2 ^ i := by
  have hbit (j : Nat) : (Memory.toNat (writeBit m i v)).testBit j =
      if j = i then v else (Memory.toNat m).testBit j := by
    rw [← readBit_eq_testBit (writeBit_wf i v hm), readBit_writeBit hm, readBit_eq_testBit hm]
  have hi : (Memory.toNat (writeBit m i v)).testBit i = v := (hbit i).trans (if_pos rfl)
  have hview := eq_sub_bit_add_bit fun j hj => (hbit j).trans (if_neg hj)
  rwa [hi] at hview

/-- Settles O26: SETBIT in range is the bit write, whose integer view is `toNat_writeBit`. -/
theorem setbitWritesAddressedBit : Obligations.SetbitWritesAddressedBit := fun _ i v hwf hi =>
  ⟨_, execSetbit_inside hi, toNat_writeBit hwf i.toNat v, writeBit_wf i.toNat v hwf, rfl, rfl, rfl,
    rfl⟩

/-! ### The byte registers after a bit write -/

theorem read_writeBit_of_ne {m : Memory} (hm : Memory.wf m = true) {i j : Nat} (v : Bool)
    (hj : j ≠ byteIndex i) : Memory.read (writeBit m i v) j = Memory.read m j := by
  rw [writeBit, read_write hm, if_neg hj]

theorem getLsbD_read_writeBit {m : Memory} (hm : Memory.wf m = true) (i : Nat) (v : Bool) {p : Nat}
    (hp : p < 8) :
    (Memory.read (writeBit m i v) (byteIndex i)).getLsbD p =
      if p = bitPosition i then v else (Memory.read m (byteIndex i)).getLsbD p := by
  have hpos : bitPosition i < 8 := Nat.mod_lt i (by decide)
  rw [writeBit, read_write hm, if_pos rfl, getLsbD_putBit _ _ _ _ hpos hp]

/-- Settles O27: SETBIT in range is the bit write, which touches one byte (`read_writeBit_of_ne`) and
there one bit (`getLsbD_read_writeBit`). -/
theorem setbitChangesOneBit : Obligations.SetbitChangesOneBit := fun _ i v hwf hi =>
  ⟨_, execSetbit_inside hi, fun _ => read_writeBit_of_ne hwf v,
    fun _ => getLsbD_read_writeBit hwf i.toNat v⟩

end Sys2Proof.Machine

/-! Proofs of the statements of 41_rotation.md: ROTL and ROTR as one rotation to the left by a
count, the laws of that rotation, and what it does to the integer view, the bits and the bytes. -/

namespace Sys2Proof.Machine

/-! ### The rotation of the buffer -/

/-- On the empty ring a rotation does nothing (41_rotation.md R90). -/
theorem rotateLeft_of_usedBitLen_zero {s : State} (h : s.usedBitLen = 0) (k : Nat) :
    s.rotateLeft k = s := by
  rw [State.rotateLeft, if_pos h]

/-- A rotation of a legal buffer stores the ring result: the mask and the empty ring need no case of
their own (41_rotation.md R90). -/
theorem rotateLeft_eq_setView {s : State} (h : s.Inv) (k : Nat) :
    s.rotateLeft k = s.setView (ringRotl s.view s.usedBitLen k) := by
  have ⟨_, htail, _⟩ := h
  rcases Nat.eq_zero_or_pos s.usedBitLen with hL | hL
  · rw [rotateLeft_of_usedBitLen_zero hL, ringRotl, if_pos hL, setView_view h]
  · rw [State.rotateLeft, if_neg hL.ne', mask_of_lt (ringRotl_lt htail k)]

/-- A rotation does not look at the response. -/
theorem rotateLeft_respond (st : Status) (b : Bool) (s : State) (k : Nat) :
    (respond st b s).rotateLeft k = respond st b (s.rotateLeft k) :=
  rotateLeft_withRsp s k (some ⟨st, b⟩)

/-- Only the count modulo the ring length matters, and on the empty ring no count does
(41_rotation.md R98). -/
theorem rotateLeft_congr {s : State} {a b : Nat}
    (h : s.usedBitLen = 0 ∨ a ≡ b [MOD s.usedBitLen]) : s.rotateLeft a = s.rotateLeft b := by
  rcases h with hL | hab
  · rw [rotateLeft_of_usedBitLen_zero hL, rotateLeft_of_usedBitLen_zero hL]
  · have hring : ringRotl s.view s.usedBitLen a = ringRotl s.view s.usedBitLen b := by
      rw [← ringRotl_mod _ _ a, hab, ringRotl_mod]
    rw [State.rotateLeft, State.rotateLeft, hring]

theorem rotateLeft_zero {s : State} (h : s.Inv) : s.rotateLeft 0 = s := by
  have ⟨_, htail, _⟩ := h
  rw [rotateLeft_eq_setView h, ringRotl_zero htail, setView_view h]

/-- Two rotations are one, by the sum of the counts (41_rotation.md R98). -/
theorem rotateLeft_rotateLeft {s : State} (h : s.Inv) (a b : Nat) :
    (s.rotateLeft a).rotateLeft b = s.rotateLeft (a + b) := by
  have ⟨_, htail, _⟩ := h
  rw [rotateLeft_eq_setView (rotateLeft_inv h a), view_rotateLeft h, rotateLeft_usedBitLen,
    ringRotl_ringRotl htail, rotateLeft_eq_setView h, rotateLeft_eq_setView h]
  rfl

/-! ### ROTL and ROTR -/

/-- The count of the left rotation that `ROTR k` is on a ring of length `L` (41_rotation.md R91). -/
def leftCount (L : Nat) (k : Arg) : Nat := L - k.toNat % L

/-- A rotation to the left by `k` and one by `leftCount L k` make a whole turn. -/
theorem leftCount_add_modEq {L : Nat} (hL : 0 < L) (k : Arg) :
    leftCount L k + k.toNat ≡ 0 [MOD L] :=
  calc leftCount L k + k.toNat
    _ ≡ leftCount L k + k.toNat % L [MOD L] := (Nat.mod_modEq _ _).symm.add_left _
    _ = L := Nat.sub_add_cancel (Nat.mod_lt _ hL).le
    _ ≡ 0 [MOD L] := Nat.modEq_zero_iff_dvd.2 dvd_rfl

theorem exec_rotl (k : Arg) (s : State) :
    exec (.rotl k) s = .next (respond .ok false (s.rotateLeft k.toNat)) := rfl

/-- `ROTR k` is a rotation to the left on every ring, the empty one too. -/
theorem exec_rotr (k : Arg) (s : State) :
    exec (.rotr k) s = .next (respond .ok false (s.rotateLeft (leftCount s.usedBitLen k))) := by
  rcases Nat.eq_zero_or_pos s.usedBitLen with hL | hL
  · rw [rotateLeft_of_usedBitLen_zero hL, exec, execRotr, if_pos hL]
  · rw [exec, execRotr, if_neg hL.ne']
    rfl

section
variable {s : State} (h : s.Inv) (a : Nat) (k : Arg)
include h

theorem exec_rotl_rotateLeft :
    exec (.rotl k) (respond .ok false (s.rotateLeft a)) =
      .next (respond .ok false (s.rotateLeft (a + k.toNat))) := by
  rw [exec_rotl, rotateLeft_respond, rotateLeft_rotateLeft h]
  rfl

theorem exec_rotr_rotateLeft :
    exec (.rotr k) (respond .ok false (s.rotateLeft a)) =
      .next (respond .ok false (s.rotateLeft (a + leftCount s.usedBitLen k))) := by
  rw [exec_rotr, rotateLeft_respond, respond_usedBitLen, rotateLeft_usedBitLen,
    rotateLeft_rotateLeft h]
  rfl

end

/-- Settles O36: both are rotations to the left, and the empty ring has one place to turn to. -/
theorem rotationsOfEmptyRing : Obligations.RotationsOfEmptyRing := by
  intro s k hL
  rw [exec_rotl, exec_rotr, rotateLeft_of_usedBitLen_zero hL, rotateLeft_of_usedBitLen_zero hL]
  exact ⟨rfl, rfl⟩

/-! ### The laws of the two commands -/

/-- Settles O40: `m` fits the 32-bit operand, since `m ≤ L ≤ 8*N < 2^32`. -/
theorem rotrIsRotlOfComplement : Obligations.RotrIsRotlOfComplement := by
  intro s k ⟨hlen, _, _⟩ hL
  have hk := Nat.mod_lt k.toNat hL
  have hm : leftCount s.usedBitLen k ≤ s.usedBitLen := Nat.sub_le _ _
  have hport : (BitVec.ofNat 32 (leftCount s.usedBitLen k)).toNat = leftCount s.usedBitLen k :=
    Nat.mod_eq_of_lt ((hm.trans hlen).trans_lt (capacityBits_lt s))
  refine ⟨by omega, hm, ?_⟩
  change _ = exec (.rotl (BitVec.ofNat 32 (leftCount s.usedBitLen k))) s
  rw [exec_rotr, exec_rotl, hport]

/-- Settles O41: both counts are 0 modulo `L`. -/
theorem rotlByZeroOrLengthIsIdentity : Obligations.RotlByZeroOrLengthIsIdentity := by
  intro s k hs hk
  have hmod : k.toNat ≡ 0 [MOD s.usedBitLen] := by
    rcases hk with hk | hk <;> rw [hk]
    exact Nat.modEq_zero_iff_dvd.2 dvd_rfl
  rw [exec_rotl, rotateLeft_congr (.inr hmod), rotateLeft_zero hs]
  rfl

/-- On any legal buffer, the empty one too, a whole turn changes nothing. -/
theorem rotateLeft_leftCount_add {s : State} (h : s.Inv) (k : Arg) :
    s.rotateLeft (leftCount s.usedBitLen k + k.toNat) = s := by
  rw [rotateLeft_congr ((Nat.eq_zero_or_pos _).imp_right (leftCount_add_modEq · k)),
    rotateLeft_zero h]

/-- Settles O42: the two counts add up to a whole turn. -/
theorem rotationsAreInverse : Obligations.RotationsAreInverse := by
  intro s k hs
  have hturn := rotateLeft_leftCount_add hs k
  refine ⟨⟨_, exec_rotl k s, rfl, ?_⟩, ⟨_, exec_rotr k s, rfl, ?_⟩⟩
  · rw [exec_rotr_rotateLeft hs, Nat.add_comm, hturn]
    rfl
  · rw [exec_rotl_rotateLeft hs, hturn]
    rfl

/-- `a - b` modulo `L`, as a sum of counts (41_rotation.md R98). -/
theorem add_leftCount_modEq {L : Nat} {a c : Nat} {b : Arg} (hL : 0 < L)
    (h : c + b.toNat ≡ a [MOD L]) : a + leftCount L b ≡ c [MOD L] := by
  refine Nat.ModEq.add_right_cancel' b.toNat ?_
  calc a + leftCount L b + b.toNat
    _ = a + (leftCount L b + b.toNat) := Nat.add_assoc ..
    _ ≡ a + 0 [MOD L] := (leftCount_add_modEq hL b).add_left a
    _ ≡ c + b.toNat [MOD L] := h.symm

/-- Settles O43: the second command adds its count, to the left, to the first one's; sums commute,
and only their remainder modulo `L` matters. -/
theorem rotationsCompose : Obligations.RotationsCompose := by
  intro s a b hs
  refine ⟨_, _, exec_rotl a s, exec_rotr b s, fun c hc => ?_, fun c hc => ?_, ?_, ?_, ?_⟩
  · rw [exec_rotl_rotateLeft hs, exec_rotl, rotateLeft_congr (hc.imp_right Nat.ModEq.symm)]
  · have hsum : s.usedBitLen = 0 ∨
        a.toNat + leftCount s.usedBitLen b ≡ c.toNat [MOD s.usedBitLen] :=
      (Nat.eq_zero_or_pos _).imp_right fun hL =>
        add_leftCount_modEq hL (hc.resolve_left hL.ne')
    rw [exec_rotr_rotateLeft hs, exec_rotl, rotateLeft_congr hsum]
  · rw [exec_rotr_rotateLeft hs, exec_rotl_rotateLeft hs, Nat.add_comm]
  · intro tb' htb'
    rw [exec_rotl] at htb'
    obtain rfl := Host.Outcome.next.inj htb'
    rw [exec_rotl_rotateLeft hs, exec_rotl_rotateLeft hs, Nat.add_comm]
  · intro ta' hta'
    rw [exec_rotr] at hta'
    obtain rfl := Host.Outcome.next.inj hta'
    rw [exec_rotr_rotateLeft hs, exec_rotr_rotateLeft hs, Nat.add_comm]

/-! ### The view, the bytes and the bits after a rotation -/

/-- The bytes of a legal buffer above its used ones are zero (10_state.md R24). -/
theorem read_tail_byte {s : State} (h : s.Inv) {j : Nat} (hj : (s.usedBitLen + 7) / 8 ≤ j) :
    Memory.read s.storage j = 0 := by
  obtain ⟨_, htail, hwf⟩ := h
  exact ((toNat_lt_two_pow_iff_bytes hwf _).1 htail).1 j hj

section
variable {s : State} (h : s.Inv) (k : Nat)
include h

/-- They are zero after a rotation too (41_rotation.md R95). -/
theorem read_rotateLeft_tail_byte {j : Nat} (hj : (s.usedBitLen + 7) / 8 ≤ j) :
    Memory.read (s.rotateLeft k).storage j = 0 :=
  read_tail_byte (rotateLeft_inv h k) (by rwa [rotateLeft_usedBitLen])

theorem read_rotateLeft_eq_of_tail_byte {j : Nat} (hj : (s.usedBitLen + 7) / 8 ≤ j) :
    Memory.read (s.rotateLeft k).storage j = Memory.read s.storage j :=
  (read_rotateLeft_tail_byte h k hj).trans (read_tail_byte h hj).symm

theorem testBit_view_rotateLeft_tail {i : Nat} (hi : s.usedBitLen ≤ i) :
    (s.rotateLeft k).view.testBit i = false := by
  obtain ⟨_, htail, _⟩ := rotateLeft_inv h k
  exact testBit_bufData_of_bufLen_le htail (hi.trans' (rotateLeft_usedBitLen s k).le)

/-- The bit at `i` goes to `(i + k) mod L` (41_rotation.md R90). -/
theorem testBit_view_rotateLeft_dest {i : Nat} (hi : i < s.usedBitLen) :
    (s.rotateLeft k).view.testBit ((i + k) % s.usedBitLen) = s.view.testBit i := by
  have ⟨_, htail, _⟩ := h
  rw [view_rotateLeft h, testBit_ringRotl_dest (Nat.zero_lt_of_lt hi) htail k i hi]

/-- The closed form of 00_scope.md R9, without the final mask. -/
theorem view_rotateLeft_closed (hL : 0 < s.usedBitLen) :
    (s.rotateLeft k).view = s.view * 2 ^ (k % s.usedBitLen) % 2 ^ s.usedBitLen +
      s.view / 2 ^ (s.usedBitLen - k % s.usedBitLen) := by
  rw [view_rotateLeft h, ringRotl, if_neg hL.ne']

end

/-- Settles O37: the closed form already fits the ring, so its mask changes nothing, and the tail is
zero before and after. -/
theorem rotlClosedForm : Obligations.RotlClosedForm := by
  intro s k hs hL
  refine ⟨_, exec_rotl k s, ?_, fun j => read_rotateLeft_eq_of_tail_byte hs k.toNat, ?_⟩
  · obtain ⟨_, htail, _⟩ := rotateLeft_inv hs k.toNat
    rw [State.TailMasked, rotateLeft_usedBitLen] at htail
    rw [respond_view, ← view_rotateLeft_closed hs k.toNat hL, Nat.mod_eq_of_lt htail]
  · simp

/-- Settles O38: `testBit_view_rotateLeft_dest` in the ring, `testBit_view_rotateLeft_tail`
above it. -/
theorem rotlMovesEveryBit : Obligations.RotlMovesEveryBit := by
  intro s k hs _
  refine ⟨_, exec_rotl k s, fun i => testBit_view_rotateLeft_dest hs k.toNat,
    fun i => testBit_view_rotateLeft_tail hs k.toNat, ?_⟩
  simp

/-- The non-negative remainder of `i - k` as a natural number: `(i + L - (k mod L)) mod L`
(41_rotation.md R97). -/
theorem toNat_sub_emod {L : Nat} (hL : 0 < L) (i : Nat) (k : Arg) :
    (((i : Int) - (k.toNat : Int)) % (L : Int)).toNat = (i + leftCount L k) % L := by
  have hk := Nat.mod_lt k.toNat hL
  have hcast : ((i + leftCount L k : Nat) : Int) = i - (k.toNat % L : Nat) + L := by
    rw [leftCount]
    omega
  rw [← Int.toNat_natCast ((i + leftCount L k) % L), Int.natCast_mod, hcast, Int.add_emod_right,
    Int.natCast_mod, Int.sub_emod_emod]

/-- Settles O39: the rotation to the left by `L - (k mod L)` takes the bit at `i` to the remainder
that `toNat_sub_emod` computes. -/
theorem rotrMovesEveryBit : Obligations.RotrMovesEveryBit := by
  intro s k hs hL
  refine ⟨_, exec_rotr k s, fun i hi => ?_, fun i => testBit_view_rotateLeft_tail hs _,
    fun j => read_rotateLeft_eq_of_tail_byte hs _, ?_⟩
  · rw [toNat_sub_emod hL, respond_view, testBit_view_rotateLeft_dest hs _ hi]
  · simp

/-! ### The number of 1 bits -/

/-- Adding `k` modulo `L` permutes the positions of the ring (41_rotation.md R99). -/
theorem map_add_mod_range_perm (L k : Nat) :
    ((List.range L).map fun i => (i + k) % L).Perm (List.range L) := by
  have hrotate : (List.range L).map (fun i => (i + k) % L) = (List.range L).rotate k :=
    List.ext_getElem (by simp) fun i _ _ => by simp [List.getElem_rotate]
  rw [hrotate]
  exact List.rotate_perm _ k

/-- A rotation keeps the number of 1 bits of the ring. -/
theorem countP_view_rotateLeft {s : State} (h : s.Inv) (k : Nat) :
    (List.range s.usedBitLen).countP (s.rotateLeft k).view.testBit =
      (List.range s.usedBitLen).countP s.view.testBit := by
  rw [← (map_add_mod_range_perm s.usedBitLen k).countP_eq, List.countP_map]
  refine List.countP_congr fun i hi => ?_
  rw [Function.comp_apply, testBit_view_rotateLeft_dest h k (List.mem_range.1 hi)]

/-- All the 1 bits of a legal buffer are in its ring (10_state.md R24). -/
theorem countP_readBit_range_capacity {s : State} (h : s.Inv) :
    (List.range s.capacityBits).countP (readBit s.storage) =
      (List.range s.usedBitLen).countP s.view.testBit := by
  obtain ⟨hlen, htail, hwf⟩ := h
  obtain ⟨d, hd⟩ := Nat.exists_eq_add_of_le hlen
  have hbits : readBit s.storage = s.view.testBit := funext (readBit_eq_testBit hwf)
  have hzero : ((List.range d).map (s.usedBitLen + ·)).countP s.view.testBit = 0 := by
    refine List.countP_eq_zero.2 fun i hi => ?_
    obtain ⟨j, _, rfl⟩ := List.mem_map.1 hi
    exact Bool.eq_false_iff.1 (testBit_bufData_of_bufLen_le htail (Nat.le_add_right _ j))
  rw [hbits, hd, List.range_add, List.countP_append, hzero, Nat.add_zero]

theorem countP_readBit_rotateLeft {s : State} (h : s.Inv) (k : Nat) :
    (List.range s.capacityBits).countP (readBit (s.rotateLeft k).storage) =
      (List.range s.capacityBits).countP (readBit s.storage) := by
  have hcap : (s.rotateLeft k).capacityBits = s.capacityBits := by
    rw [State.capacityBits, State.capacityBytes, rotateLeft_topByte]
    rfl
  have hrot := countP_readBit_range_capacity (rotateLeft_inv h k)
  rw [hcap, rotateLeft_usedBitLen] at hrot
  rw [hrot, countP_view_rotateLeft h, countP_readBit_range_capacity h]

/-- Both commands are a rotation to the left by some count. -/
theorem exec_rotation_eq_rotateLeft {i : Instr} {k : Arg} (hi : i = .rotl k ∨ i = .rotr k)
    (s : State) : ∃ n, exec i s = .next (respond .ok false (s.rotateLeft n)) := by
  rcases hi with rfl | rfl
  · exact ⟨_, exec_rotl k s⟩
  · exact ⟨_, exec_rotr k s⟩

/-- Settles O44: the positions of the ring are permuted, and above the ring there are no 1 bits. -/
theorem rotationsKeepBitCount : Obligations.RotationsKeepBitCount := by
  intro s k i hs hi
  obtain ⟨n, hn⟩ := exec_rotation_eq_rotateLeft hi s
  exact ⟨_, hn, countP_view_rotateLeft hs n, countP_readBit_rotateLeft hs n⟩

/-! ### The native rotate -/

/-- Lean's rotate of an `L`-bit word is the ring primitive (41_rotation.md R96, log entry 14): bit
`j` is read from the same place. -/
theorem toNat_rotateLeft_ofNat {S L : Nat} (hL : 0 < L) (hS : S < 2 ^ L) (k : Nat) :
    ((BitVec.ofNat L S).rotateLeft k).toNat = ringRotl S L k := by
  have hbit (i : Nat) : (BitVec.ofNat L S).getLsbD i = S.testBit i := by
    rw [← BitVec.testBit_toNat, BitVec.toNat_ofNat, Nat.mod_eq_of_lt hS]
  have hk := Nat.mod_lt k hL
  refine Nat.eq_of_testBit_eq fun j => ?_
  rw [BitVec.testBit_toNat, BitVec.getLsbD_rotateLeft, testBit_ringRotl hL hS, hbit, hbit]
  by_cases hj : j < k % L
  · rw [if_pos hj, decide_eq_true hj, cond_true, decide_eq_true (hj.trans hk), Bool.true_and,
      Nat.add_comm]
  · rw [if_neg hj, decide_eq_false hj, cond_false]

/-- Settles O45: the closed form at `L = 8*m`, which Lean's rotate agrees with, and the zero tail,
which begins at byte `m`. -/
theorem rotlIsNativeRotate : Obligations.RotlIsNativeRotate := by
  intro s k m hs hm _ hL
  have ⟨_, htail, _⟩ := hs
  have hpos : 0 < s.usedBitLen := by omega
  refine ⟨_, exec_rotl k s, ?_, ?_, fun j hj => read_rotateLeft_tail_byte hs k.toNat (by omega)⟩
  · rw [respond_view, view_rotateLeft_closed hs k.toNat hpos, hL]
  · rw [respond_view, view_rotateLeft hs, ← hL, toNat_rotateLeft_ofNat hpos htail, ringRotl_mod]

end Sys2Proof.Machine

/-! Proofs of the statements of 42_host_sequences.md: what LOAD makes of CLONE, CLEAR and PACK, the
host's read-out, the reduced count, and schedules as runs of rotations. -/

namespace Sys2Proof.Machine

/-- A number within the capacity fits the 32-bit operand (00_scope.md R4, R5). -/
theorem toNat_ofNat_of_le_capacityBits {s : State} {n : Nat} (h : n ≤ s.capacityBits) :
    (BitVec.ofNat 32 n : Arg).toNat = n :=
  Nat.mod_eq_of_lt (h.trans_lt (capacityBits_lt s))

/-! ### CLONE and CLEAR -/

/-- Settles O48: the ports of a legal source show its whole length, which fits the operand, and its
whole integer view, which the mask keeps and the registers hold. -/
theorem cloneCopiesBuffer : Obligations.CloneCopiesBuffer := by
  intro src dst hsrc htop
  have ⟨hlen, htail, hwf⟩ := hsrc
  have hbytes : dst.capacityBytes = src.capacityBytes := by
    rw [State.capacityBytes, htop, State.capacityBytes]
  have hport : (BitVec.ofNat 32 src.bufLen).toNat = src.usedBitLen :=
    toNat_ofNat_of_le_capacityBits hlen
  have hstore : Memory.ofNat src.capacityBytes (mask src.bufData src.usedBitLen) = src.storage := by
    rw [State.bufData, mask_of_lt htail]
    exact ofNat_toNat hwf (view_lt_capacity hsrc)
  have hfits : (BitVec.ofNat 32 src.bufLen).toNat ≤ dst.capacityBits := by
    rwa [hport, State.capacityBits, hbytes]
  rw [clone, exec_load_of_le hfits, hport, hbytes, hstore]

/-- Settles O49: data masked to no bits is 0, the integer view of the empty list. -/
theorem clearLeavesResetBuffer : Obligations.ClearLeavesResetBuffer := by
  intro s d
  have hstore : Memory.ofNat s.capacityBytes (mask d 0) = [] :=
    toNat_injective (ofNat_wf _ _) rfl (by simp [toNat_ofNat, mask, Memory.toNat, Nat.mod_one])
  exact ⟨_, exec_load_of_le (Nat.zero_le _), ⟨rfl, rfl, hstore⟩, rfl, rfl⟩

/-! ### The read-out -/

/-- The bytes of a list are its lanes, in order (20_memory.md R42). -/
theorem map_lane_lanes (bs : List Byte) : (List.range bs.length).map (lane (lanes bs)) = bs :=
  List.ext_getElem (by simp) fun j _ hj => by simp [lane_lanes, hj]

theorem lane_succ (v j : Nat) : lane v (j + 1) = lane (v / 256) j := by
  rw [lane, lane, Nat.div_div_eq_div_mul, show 8 * (j + 1) = 8 + 8 * j by omega, Nat.pow_add]

/-- The first `n` lanes of a port make up its value modulo `2^(8*n)` (20_memory.md R42). -/
theorem lanes_map_lane (n v : Nat) : lanes ((List.range n).map (lane v)) = v % 2 ^ (8 * n) := by
  induction n generalizing v with
  | zero => simp [lanes, Nat.mod_one]
  | succ n ih =>
    have htail : (List.range n).map (lane v ∘ Nat.succ) = (List.range n).map (lane (v / 256)) :=
      List.map_congr_left fun j _ => lane_succ v j
    rw [List.range_succ_eq_map, List.map_cons, List.map_map, htail, lanes, ih,
      show 8 * (n + 1) = 8 + 8 * n by omega, Nat.pow_add, Nat.mod_mul]
    simp [lane]

/-- Settles O57: lane `j` of `buf_data` is register `j`, and a whole-byte length leaves no bit of
`buf_data` above the lanes read. -/
theorem readOutGivesUsedBytes : Obligations.ReadOutGivesUsedBytes := by
  intro s ⟨_, htail, hwf⟩
  refine ⟨rfl, List.map_congr_left fun j _ => lane_bufData hwf j, fun hwhole => ?_⟩
  have hbits : 8 * usedBytes s = s.usedBitLen := Nat.mul_div_cancel' (Nat.dvd_of_mod_eq_zero hwhole)
  rw [readOut, lanes_map_lane, hbits]
  exact Nat.mod_eq_of_lt htail

/-! ### PACK -/

/-- The bytes PACK takes, `0` above them (42_host_sequences.md R111). -/
theorem getD_take (bs : List Byte) (n j : Nat) :
    (bs.take n).getD j 0 = if j < min bs.length n then bs.getD j 0 else 0 := by
  by_cases hj : j < min bs.length n
  · have ⟨_, hn⟩ := lt_min_iff.1 hj
    rw [if_pos hj, List.getD_eq_getElem?_getD, List.getElem?_take_of_lt hn,
      List.getD_eq_getElem?_getD]
  · rw [if_neg hj, List.getD_eq_default _ _ (by rw [List.length_take]; omega)]

/-- The bytes PACK takes fit the registers. -/
theorem toNat_ofNat_lanes_take (n : Nat) (bs : List Byte) :
    Memory.toNat (Memory.ofNat n (lanes (bs.take n))) = lanes (bs.take n) := by
  have hlen : 8 * (bs.take n).length ≤ 8 * n := Nat.mul_le_mul_left 8 (List.length_take_le n bs)
  rw [toNat_ofNat, Nat.mod_eq_of_lt]
  exact (lanes_lt _).trans_le (Nat.pow_le_pow_right Nat.two_pos hlen)

/-- The whole result of a PACK: its length is within the capacity, and its bytes fill that length,
so LOAD masks nothing away (42_host_sequences.md R111). -/
theorem exec_pack (s : State) (bs : List Byte) :
    exec (pack s.capacityBytes bs) s =
      .next { topByte := s.topByte
              usedBitLen := 8 * min bs.length s.capacityBytes
              storage := Memory.ofNat s.capacityBytes (lanes (bs.take s.capacityBytes))
              rsp := some ⟨.ok, false⟩
              inputs := s.inputs } := by
  have hfits : 8 * min bs.length s.capacityBytes ≤ s.capacityBits :=
    Nat.mul_le_mul_left 8 (Nat.min_le_right _ _)
  have hport := toNat_ofNat_of_le_capacityBits hfits
  have hmask : mask (lanes (bs.take s.capacityBytes)) (8 * min bs.length s.capacityBytes) =
      lanes (bs.take s.capacityBytes) := by
    rw [Nat.min_comm, ← List.length_take, mask_of_lt (lanes_lt _)]
  rw [pack, loadBytes, packedBytes, exec_load_of_le (by rwa [hport]), hport, hmask]

/-- Settles O50: the registers hold the packed lanes whole, and the read-out takes just these. -/
theorem packLoadsBytes : Obligations.PackLoadsBytes := by
  intro s bs
  have hview := toNat_ofNat_lanes_take s.capacityBytes bs
  have hused : 8 * min bs.length s.capacityBytes / 8 = (bs.take s.capacityBytes).length := by
    rw [Nat.mul_div_cancel_left _ (by decide), List.length_take, Nat.min_comm]
  refine ⟨_, exec_pack s bs, rfl, rfl, Nat.mul_div_cancel_left _ (by decide), ?_, fun j => ?_⟩
  · rw [readOut, usedBytes, State.bufLen, hused, State.bufData, State.view, hview, map_lane_lanes]
  · rw [read_eq_div (ofNat_wf _ _), hview, ← getD_take, ← lane_lanes, lane]

/-! ### The reduced count -/

/-- Settles O51: `K mod L` is below `L`, so the port carries it, and a rotation sees `K` modulo `L`
only. -/
theorem reducedCountRotates : Obligations.ReducedCountRotates := by
  intro s K ⟨hlen, _, _⟩ hL
  have hport : (portCount K s.usedBitLen).toNat = K % s.usedBitLen :=
    toNat_ofNat_of_le_capacityBits ((Nat.mod_lt K hL).le.trans hlen)
  rw [exec_rotl, hport, rotateLeft_congr (.inr (Nat.mod_modEq K s.usedBitLen))]
  rfl

/-! ### Runs of rotations -/

/-- The count of the left rotation that a rotation command is on a ring of length `L`
(`exec_of_isRotation`). -/
def turn (L : Nat) : Instr → Nat
  | .rotl k => k.toNat
  | .rotr k => leftCount L k
  | _ => 0

/-- The instruction is one of the rotation family (41_rotation.md). -/
def IsRotation (i : Instr) : Prop := ∃ k, i = .rotl k ∨ i = .rotr k

theorem exec_of_isRotation {i : Instr} (hi : IsRotation i) (s : State) :
    exec i s = .next (respond .ok false (s.rotateLeft (turn s.usedBitLen i))) := by
  obtain ⟨k, rfl | rfl⟩ := hi
  · exact exec_rotl k s
  · exact exec_rotr k s

/-- The first instruction of a run, and the rest of it. -/
theorem runInstrs_cons {i : Instr} {s t : State} (h : exec i s = .next t) (is : List Instr) :
    runInstrs (i :: is) s =
      (runInstrs is t).map fun r => { r with responses := t.rsp.toList ++ r.responses } :=
  runCommands_cons ((issue_of_decode_instr (decodeEncodeRoundTrip i) s).trans h) _

/-- A run of rotations on a legal buffer is one rotation, by the sum of their counts, and every
response is OK (41_rotation.md R98). -/
theorem runInstrs_of_isRotation {is : List Instr} (his : ∀ i ∈ is, IsRotation i) {s : State}
    (hs : s.Inv) :
    ∃ r, runInstrs is s = some r ∧
      r.final.SameBuffer (s.rotateLeft (is.map (turn s.usedBitLen)).sum) ∧
      allOk r.responses = true ∧ r.responses.length = is.length := by
  induction is generalizing s with
  | nil =>
    refine ⟨⟨s, []⟩, rfl, ?_, rfl, rfl⟩
    rw [List.map_nil, List.sum_nil, rotateLeft_zero hs]
    exact ⟨rfl, rfl, rfl⟩
  | cons i is ih =>
    have ⟨hi, his⟩ := List.forall_mem_cons.1 his
    have hrun := runInstrs_cons (exec_of_isRotation hi s) is
    obtain ⟨r, hr, hbuf, hok, hlen⟩ :=
      ih his (s := respond .ok false (s.rotateLeft (turn s.usedBitLen i))) (rotateLeft_inv hs _)
    rw [respond_usedBitLen, rotateLeft_usedBitLen, rotateLeft_respond,
      rotateLeft_rotateLeft hs] at hbuf
    refine ⟨_, by rw [hrun, hr]; rfl, ?_, ?_, ?_⟩
    · rwa [List.map_cons, List.sum_cons]
    · simpa [allOk] using hok
    · simp [hlen]

/-! ### Schedules -/

theorem isRotation_sched (o : Byte) : IsRotation (sched o) := by
  unfold sched
  split
  · exact ⟨_, .inl rfl⟩
  · exact ⟨_, .inr rfl⟩

theorem isRotation_schedInv (o : Byte) : IsRotation (schedInv o) := by
  unfold schedInv
  split
  · exact ⟨_, .inr rfl⟩
  · exact ⟨_, .inl rfl⟩

/-- Every step of a forward schedule and of an inverse one is a rotation. -/
theorem isRotation_of_mem_schedule {os os' : List Byte} {i : Instr}
    (hi : i ∈ forwardSchedule os ++ inverseSchedule os') : IsRotation i := by
  rcases List.mem_append.1 hi with hi | hi
  · obtain ⟨o, _, rfl⟩ := List.mem_map.1 hi
    exact isRotation_sched o
  · obtain ⟨o, _, rfl⟩ := List.mem_map.1 hi
    exact isRotation_schedInv o

/-- A step and its inverse make whole turns (42_host_sequences.md R113). -/
theorem dvd_turn_sched_add_turn_schedInv {L : Nat} (hL : 0 < L) (o : Byte) :
    L ∣ turn L (sched o) + turn L (schedInv o) := by
  have hturn := Nat.modEq_zero_iff_dvd.1 (leftCount_add_modEq hL (o.setWidth 32))
  unfold sched schedInv
  split
  · rwa [Nat.add_comm] at hturn
  · exact hturn

/-- A schedule and its inverse make whole turns: the counts of the inverse, in reverse order, pair
off with those of the schedule. -/
theorem dvd_sum_turn_roundTrip {L : Nat} (hL : 0 < L) (os : List Byte) :
    L ∣ ((forwardSchedule os ++ inverseSchedule os).map (turn L)).sum := by
  have hpairs : ((forwardSchedule os ++ inverseSchedule os).map (turn L)).sum =
      (os.map fun o => turn L (sched o) + turn L (schedInv o)).sum := by
    rw [forwardSchedule, inverseSchedule, List.map_append, List.sum_append, List.map_reverse,
      List.map_reverse, List.sum_reverse, List.map_map, List.map_map, List.sum_map_add]
    rfl
  rw [hpairs]
  refine List.dvd_sum fun n hn => ?_
  obtain ⟨o, _, rfl⟩ := List.mem_map.1 hn
  exact dvd_turn_sched_add_turn_schedInv hL o

/-- Settles O46: the run is one rotation, by whole turns. -/
theorem scheduleRoundTrip : Obligations.ScheduleRoundTrip := by
  intro s os hs
  obtain ⟨r, hr, hbuf, hok, hlen⟩ :=
    runInstrs_of_isRotation (fun _ => isRotation_of_mem_schedule (os := os) (os' := os)) hs
  have hturns := (Nat.eq_zero_or_pos s.usedBitLen).imp_right fun hL =>
    Nat.modEq_zero_iff_dvd.2 (dvd_sum_turn_roundTrip hL os)
  rw [rotateLeft_congr hturns, rotateLeft_zero hs] at hbuf
  refine ⟨r, hr, hbuf, hok, ?_⟩
  rw [hlen]
  simp [forwardSchedule, inverseSchedule, Nat.two_mul]

/-- Settles O47: the run is one rotation, by the sum of the counts of its steps. -/
theorem anyScheduleIsOneRotation : Obligations.AnyScheduleIsOneRotation := by
  intro s os os' hs
  obtain ⟨r, hr, hbuf, hok, _⟩ :=
    runInstrs_of_isRotation (fun _ => isRotation_of_mem_schedule (os := os) (os' := os')) hs
  exact ⟨r, _, hr, hbuf, hok⟩

end Sys2Proof.Machine

/-! Proofs of the statements of 60_exceptions.md: the cause of each error, what a failed command
leaves and what it does when repeated, and the wait of an idle block. -/

namespace Sys2Proof.Machine

/-! ### The causes of the errors -/

/-- What makes a command that the decoder reads as `d` end with a given status other than OK in the
state `s` (60_exceptions.md R131, R132, R133); nothing makes it fail with OK. -/
def FailureCause (d : Decoded) (s : State) : Status → Prop
  | .ok => False
  | .capacityExceeded => ∃ b data, d = .instr (.load b data) ∧ s.capacityBits < b.toNat
  | .indexOutOfRange => ∃ x : Arg, s.usedBitLen ≤ x.toNat ∧
      (d = .instr (.getbit x) ∨ ∃ v, d = .instr (.setbit x v))
  | .illegalCommand => ∃ why, d = .illegal why

theorem issue_of_decode_illegal {c : Command} {why : Illegal} (h : decode c = .illegal why)
    (s : State) : issue c s = .next (raise .illegalCommand s) := by
  rw [issue, h, execIllegal]

/-- Each of the five commands raises an error it has a cause for, or succeeds. -/
theorem exec_raises_or_ok {i : Instr} {s t : State} (h : exec i s = .next t) :
    (∃ e, FailureCause (.instr i) s e ∧ t = raise e s) ∨ ∃ bit, t.rsp = some ⟨.ok, bit⟩ := by
  rcases exec_cases h with ⟨b, d, rfl, hb, rfl⟩ | ⟨_, _, _, _, rfl⟩ | ⟨x, rfl, hx, rfl⟩ |
    ⟨_, _, _, rfl⟩ | ⟨x, v, rfl, hx, rfl⟩ | ⟨_, _, _, _, rfl⟩ | ⟨_, _, rfl⟩ | ⟨_, _, rfl⟩
  case inl => exact .inl ⟨.capacityExceeded, ⟨b, d, rfl, hb⟩, rfl⟩
  case inr.inr.inl => exact .inl ⟨.indexOutOfRange, ⟨x, hx, .inl rfl⟩, rfl⟩
  case inr.inr.inr.inr.inl => exact .inl ⟨.indexOutOfRange, ⟨x, hx, .inr ⟨v, rfl⟩⟩, rfl⟩
  all_goals exact .inr ⟨_, respond_rsp _ _ _⟩

theorem issue_raises_or_ok {c : Command} {s t : State} (h : issue c s = .next t) :
    (∃ e, FailureCause (decode c) s e ∧ t = raise e s) ∨ ∃ bit, t.rsp = some ⟨.ok, bit⟩ := by
  rcases issue_cases h with ⟨i, hdec, h⟩ | ⟨why, hdec, rfl⟩
  · rw [hdec]
    exact exec_raises_or_ok h
  · exact .inl ⟨.illegalCommand, ⟨why, hdec⟩, rfl⟩

/-- A command answered with an error had a cause for that error and did nothing but raise it
(60_exceptions.md R130, R137). -/
theorem issue_failed {c : Command} {s t : State} {r : Response} (h : issue c s = .next t)
    (hrsp : t.rsp = some r) (hfail : r.status ≠ .ok) :
    FailureCause (decode c) s r.status ∧ t = raise r.status s := by
  rcases issue_raises_or_ok h with ⟨e, hcause, rfl⟩ | ⟨bit, hok⟩
  · obtain rfl : ⟨e, false⟩ = r := Option.some.inj hrsp
    exact ⟨hcause, rfl⟩
  · obtain rfl : r = ⟨.ok, bit⟩ := Option.some.inj (hrsp.symm.trans hok)
    exact absurd rfl hfail

/-! ### Each error exactly at its cause -/

/-- Settles O7: the words listed are the illegal ones (`illegalWordsExactly`), and an illegal word
raises its error at decode. -/
theorem illegalCommandAnswered : Obligations.IllegalCommandAnswered := by
  refine ⟨rfl, fun s c hword => ?_⟩
  obtain ⟨why, hdec⟩ := (illegalWordsExactly c).2 hword
  exact issue_of_decode_illegal hdec s

/-- Settles O21: LOAD on the failing side of its test one way, the cause of the error the other
way. -/
theorem capacityExceededExactly : Obligations.CapacityExceededExactly :=
  ⟨rfl, fun _ _ _ hb => execLoad_exceeds hb, fun _ _ _ _ h hrsp => (issue_failed h hrsp nofun).1⟩

/-- Settles O24: GETBIT and SETBIT on the failing side of their test one way, the cause of the error
the other way. -/
theorem indexOutOfRangeExactly : Obligations.IndexOutOfRangeExactly :=
  ⟨rfl, fun _ _ hi => ⟨execGetbit_outside hi, fun _ => execSetbit_outside hi⟩,
    fun _ _ _ _ h hrsp => (issue_failed h hrsp nofun).1⟩

/-! ### After a failure -/

/-- Settles O29: to raise an error is to change the response alone. -/
theorem failedCommandChangesNothing : Obligations.FailedCommandChangesNothing :=
  fun _ _ _ _ h hrsp hfail => (issue_failed h hrsp hfail).2

/-- Settles O30: the failure changed the response alone (O29), which no command reads
(`issue_withRsp`), so the repetition runs as the first time. -/
theorem failedCommandRepeats : Obligations.FailedCommandRepeats := by
  intro s t c r h hrsp hfail
  have ht : t = { s with rsp := some ⟨r.status, false⟩ } :=
    failedCommandChangesNothing s t c r h hrsp hfail
  calc issue c t
    _ = issue c s := by rw [ht, issue_withRsp]
    _ = .next t := h

/-! ### The idle block -/

theorem step_of_inputs_nil {s : State} (h : s.inputs = []) : step s = .next (waitIdle s) := by
  rw [step, h]

theorem step_of_inputs_idle {s : State} {rest : List PortSample}
    (h : s.inputs = ⟨false, none⟩ :: rest) :
    step s = .next (waitIdle { s with inputs := rest }) := by
  rw [step, h]
  rfl

/-- Settles O9: in both cases the step is a wait, which clears the response alone. -/
theorem idleStepKeepsBuffer : Obligations.IdleStepKeepsBuffer :=
  fun _ => ⟨step_of_inputs_nil, fun _ => step_of_inputs_idle⟩

end Sys2Proof.Machine

/-! Proofs of the statements of 70_reset_and_hazards.md: the reset step, the answer of every step,
runs of commands, and the handshake at the ports. -/

namespace Sys2Proof.Machine

/-! ### One step -/

theorem step_of_inputs_reset {s : State} {c : Option Command} {rest : List PortSample}
    (h : s.inputs = ⟨true, c⟩ :: rest) :
    step s = .next (resetBlock { s with inputs := rest }) := by
  rw [step, h]
  rfl

/-- The reset event leaves the reset state of the instance, with what the host presents next. -/
theorem resetBlock_eq_resetOf (s : State) :
    resetBlock s = { State.resetOf s.topByte with inputs := s.inputs } := rfl

/-- Settles O8: the step takes the sample off and runs the reset event, whatever command is beside
it. -/
theorem resetEventWins : Obligations.ResetEventWins := by
  intro s c rest hin
  rw [step_of_inputs_reset hin, resetBlock_eq_resetOf]

/-- A step that takes a command takes only that command and gives one response
(30_encoding.md R68). -/
theorem step_ports_of_presents {s t : State} {c : Command} {rest : List PortSample}
    (hin : s.inputs = presents c :: rest) (h : step s = .next t) :
    t.inputs = rest ∧ ∃ r, t.rsp = some r := by
  rw [step_of_inputs_presents hin] at h
  obtain ⟨hinputs, _, hrsp⟩ := issue_ports h
  exact ⟨hinputs, hrsp⟩

/-- A step that takes no command gives no response: it is a wait or a reset. -/
theorem step_rsp_of_not_presents {s t : State}
    (hnot : ∀ c rest, s.inputs ≠ presents c :: rest) (h : step s = .next t) : t.rsp = none := by
  rcases step_cases h with ⟨_, rfl⟩ | ⟨_, _, _, rfl⟩ | ⟨_, _, rfl⟩ | ⟨c, rest, hin, _⟩
  · exact waitIdle_rsp _
  · exact resetBlock_rsp _
  · exact waitIdle_rsp _
  · exact absurd hin (hnot c rest)

/-- Settles O10: `step_answers` gives the next state, and whether a command is presented decides
whether there is a response in it. -/
theorem everyStepAnswers : Obligations.EveryStepAnswers := by
  intro s
  obtain ⟨t, ht⟩ := step_answers s
  exact ⟨t, ht, fun _ _ hin => step_ports_of_presents hin ht,
    fun hnot => step_rsp_of_not_presents hnot ht⟩

/-! ### Runs of commands -/

/-- `s` with a list of commands presented, one a step, before anything else the host will
present. -/
def placeCommands (cs : List Command) (s : State) : State :=
  { s with inputs := cs.map presents ++ s.inputs }

/-- The step of the first command placed leaves the others placed. -/
theorem step_placeCommands_cons {c : Command} {s t : State} (h : issue c s = .next t)
    (cs : List Command) : step (placeCommands (c :: cs) s) = .next (placeCommands cs t) := by
  rw [placeCommands, placeCommands, issue_keeps_inputs h]
  exact step_presented h _

/-- A run through the host's interface over placed commands starts with the first of them. -/
theorem run_placeCommands_cons {c : Command} {s t : State} (h : issue c s = .next t)
    (cs : List Command) (n : Nat) :
    core.run (n + 1) (placeCommands (c :: cs) s) = core.run n (placeCommands cs t) :=
  run_succ (step_placeCommands_cons h cs) n

/-- No list of commands stops (70_reset_and_hazards.md R157). -/
theorem runCommands_answers (cs : List Command) (s : State) : ∃ r, runCommands cs s = some r := by
  induction cs generalizing s with
  | nil => exact ⟨_, rfl⟩
  | cons c cs ih =>
    obtain ⟨t, ht⟩ := issue_answers c s
    obtain ⟨r, hr⟩ := ih t
    exact ⟨_, by rw [runCommands_cons ht, hr, Option.map_some]⟩

/-- A run of commands is the first command, with its one response, and the run of the others from
the state it leaves (70_reset_and_hazards.md R158). -/
theorem runCommands_cons_eq_some {c : Command} {cs : List Command} {s : State} {r : RunOutput}
    (h : runCommands (c :: cs) s = some r) :
    ∃ t x r', issue c s = .next t ∧ t.rsp = some x ∧ runCommands cs t = some r' ∧
      r = ⟨r'.final, x :: r'.responses⟩ := by
  obtain ⟨t, ht⟩ := issue_answers c s
  obtain ⟨_, _, x, hx⟩ := issue_ports ht
  rw [runCommands_cons ht] at h
  obtain ⟨r', hr', rfl⟩ := Option.map_eq_some_iff.1 h
  exact ⟨t, x, r', ht, hx, hr', by rw [hx]; rfl⟩

theorem runCommands_responses_length {cs : List Command} {s : State} {r : RunOutput}
    (h : runCommands cs s = some r) : r.responses.length = cs.length := by
  induction cs generalizing s r with
  | nil =>
    obtain rfl := Option.some.inj h
    rfl
  | cons c cs ih =>
    obtain ⟨t, x, r', _, _, hr', rfl⟩ := runCommands_cons_eq_some h
    rw [List.length_cons, List.length_cons, ih hr']

/-- Commands presented one a step lead to the final state of their run. -/
theorem run_placeCommands {cs : List Command} {s : State} {r : RunOutput}
    (h : runCommands cs s = some r) : core.run cs.length (placeCommands cs s) = .next r.final := by
  induction cs generalizing s r with
  | nil =>
    obtain rfl := Option.some.inj h
    rfl
  | cons c cs ih =>
    obtain ⟨t, x, r', ht, _, hr', rfl⟩ := runCommands_cons_eq_some h
    rw [List.length_cons, run_placeCommands_cons ht, ih hr']

/-- Response `n` of a run is the one that the step of command `n` leaves. -/
theorem run_placeCommands_rsp {cs : List Command} {s : State} {r : RunOutput}
    (h : runCommands cs s = some r) {n : Nat} (hn : n < cs.length) :
    ∃ t : State, core.run (n + 1) (placeCommands cs s) = .next t ∧ t.rsp = r.responses[n]? := by
  induction cs generalizing s r n with
  | nil => exact absurd hn (Nat.not_lt_zero n)
  | cons c cs ih =>
    obtain ⟨t, x, r', ht, hx, hr', rfl⟩ := runCommands_cons_eq_some h
    rw [run_placeCommands_cons ht]
    cases n with
    | zero => exact ⟨placeCommands cs t, rfl, hx⟩
    | succ n => exact ih hr' (Nat.lt_of_succ_lt_succ hn)

/-- Settles O52: the run exists, and by induction on the list it agrees with the steps. -/
theorem runAnswersEveryCommand : Obligations.RunAnswersEveryCommand := by
  intro s cs
  obtain ⟨r, hr⟩ := runCommands_answers cs s
  exact ⟨r, hr, runCommands_responses_length hr, run_placeCommands hr,
    fun _ => run_placeCommands_rsp hr⟩

/-! ### The ports: a command in progress -/

section
variable {p : Pins} (hrst : p.rst = false)
include hrst

theorem clock_idle_accept (hvalid : p.cmdValid = true) (s : State) :
    clock p (.idle s) =
      progress s ⟨p.cmdWord, p.cmdData⟩ (extraCycles s ⟨p.cmdWord, p.cmdData⟩) := by
  simp only [clock, hrst, hvalid, if_true, Bool.false_eq_true, if_false]

theorem clock_idle_wait (hvalid : p.cmdValid = false) (s : State) :
    clock p (.idle s) = .idle (waitIdle s) := by
  simp only [clock, hrst, hvalid, Bool.false_eq_true, if_false]

theorem clock_busy (s : State) (c : Command) (left : Nat) :
    clock p (.busy s c left) = progress s c left := by
  simp only [clock, hrst, Bool.false_eq_true, if_false]

theorem clock_answering (t : State) : clock p (.answering t) = .idle (waitIdle t) := by
  simp only [clock, hrst, Bool.false_eq_true, if_false]

end

/-- Each edge without reset is one of the cycles a command in progress has to pass
(70_reset_and_hazards.md R153, R156). -/
theorem clocks_progress {ps : List Pins} (hps : ∀ q ∈ ps, q.rst = false) (s : State) (c : Command)
    (left : Nat) : clocks ps (progress s c (ps.length + left)) = progress s c left := by
  induction ps with
  | nil => rw [clocks, List.length_nil, Nat.zero_add]
  | cons q ps ih =>
    have ⟨hq, hps⟩ := List.forall_mem_cons.1 hps
    rw [List.length_cons, Nat.add_right_comm, clocks, progress, clock_busy hq, ih hps]

/-- The response cycle of a command shows the state the atomic command gives (20_memory.md R45). -/
theorem progress_zero {c : Command} {s t : State} (h : issue c s = .next t) :
    progress s c 0 = .answering t := by
  rw [progress, answerPhase, h]

/-- Settles O53: the accepting edge puts the command in progress with all its cycles left, and
`clocks_progress` counts them, to the last one or to one before it. -/
theorem acceptedCommandIsAnswered : Obligations.AcceptedCommandIsAnswered := by
  intro s p ps hrst hvalid hps hlen
  have haccept := clock_idle_accept hrst hvalid s
  rw [← hlen] at haccept
  refine ⟨?_, fun n hn => ?_⟩
  · obtain ⟨t, ht⟩ := issue_answers ⟨p.cmdWord, p.cmdData⟩ s
    exact ⟨t, ht, by rw [clocks, haccept, ← progress_zero ht]; exact clocks_progress hps s _ 0⟩
  · obtain ⟨left, hleft⟩ : ∃ left, ps.length = (ps.take n).length + left + 1 :=
      Nat.exists_eq_add_of_lt (by rwa [List.length_take_of_le hn.le])
    have hbefore : ∀ q ∈ ps.take n, q.rst = false := fun q hq => hps q (List.mem_of_mem_take hq)
    refine ⟨left, ?_⟩
    rw [clocks, haccept, hleft]
    exact clocks_progress hbefore s _ (left + 1)

/-! ### The ports: reset -/

theorem clock_rst {p : Pins} (hrst : p.rst = true) (ph : PortPhase) :
    clock p ph = .idle (afterReset ph) := by
  simp only [clock, hrst, if_true]

@[simp] theorem afterReset_usedBitLen (ph : PortPhase) : (afterReset ph).usedBitLen = 0 := by
  cases ph <;> rfl

@[simp] theorem afterReset_storage (ph : PortPhase) : (afterReset ph).storage = [] := by
  cases ph <;> rfl

/-- Reset keeps the instance, so `cap_bits` too (10_state.md R23). -/
@[simp] theorem afterReset_capBits (ph : PortPhase) : (afterReset ph).capBits = capBitsPort ph := by
  cases ph <;> rfl

/-- The ports of an idle block with an empty buffer (10_state.md R31). -/
theorem outs_idle_empty {s : State} (hlen : s.usedBitLen = 0) (hmem : s.storage = []) :
    outs (.idle s) = some ⟨true, false, none, none, some 0, some 0⟩ := by
  rw [outs, State.bufData, State.view, State.bufLen, hlen, hmem, Memory.toNat]

/-- Settles O54: the edge leads to `afterReset`, whose buffer is empty from every phase. -/
theorem resetEdgeWins : Obligations.ResetEdgeWins := by
  intro p ph hrst
  have hlen := afterReset_usedBitLen ph
  have hmem := afterReset_storage ph
  refine ⟨afterReset ph, clock_rst hrst ph, hlen, hmem, afterReset_capBits ph, ?_⟩
  rw [clock_rst hrst]
  exact outs_idle_empty hlen hmem

/-! ### The ports: ready, waiting and the response strobe -/

/-- Out of reset, the ports tell the idle phase and the answering one from the others
(70_reset_and_hazards.md R153, R154). -/
theorem outs_tell_phase {ph : PortPhase} {o : Outs} (h : outs ph = some o) :
    ((∃ s, ph = .idle s) ↔ o.cmdReady = true) ∧
    (o.cmdReady = true ↔ o.bufData.isSome = true) ∧
    (o.cmdReady = true ↔ o.bufLen.isSome = true) ∧
    (o.rspValid = true ↔ ∃ t, ph = .answering t) := by
  cases ph with
  | beforeReset top => exact nomatch h
  | idle s =>
    obtain rfl := Option.some.inj h
    simp
  | busy s c left =>
    obtain rfl := Option.some.inj h
    simp
  | answering t =>
    obtain rfl := Option.some.inj h
    simp

/-- While a command is in progress or its response is given, the edge reads `rst` alone
(70_reset_and_hazards.md R153). -/
theorem clock_eq_of_rst_eq {p q : Pins} (hrst : p.rst = q.rst) {ph : PortPhase}
    (hph : ∀ s, ph ≠ .idle s) : clock p ph = clock q ph := by
  unfold clock
  rw [hrst]
  cases ph with
  | idle s => exact absurd rfl (hph s)
  | beforeReset top => rfl
  | busy s c left => rfl
  | answering t => rfl

/-- Settles O55: the ports by phase, the two phases that read `rst` alone, and the wait of an idle
block, which clears the response alone. -/
theorem readyExactlyWhenIdle : Obligations.ReadyExactlyWhenIdle :=
  ⟨fun _ _ => outs_tell_phase, fun _ _ _ _ _ hrst => clock_eq_of_rst_eq hrst nofun,
    fun _ _ _ hrst => clock_eq_of_rst_eq hrst nofun,
    fun _ s hrst hvalid => ⟨waitIdle s, clock_idle_wait hrst hvalid s, ⟨rfl, rfl, rfl⟩, rfl⟩⟩

theorem outs_answering {t : State} {r : Response} (h : t.rsp = some r) :
    outs (.answering t) =
      some ⟨false, true, some (statusCode r.status), some r.bit, none, none⟩ := by
  rw [outs, h, Option.map_some, Option.map_some]

/-- Settles O56: a command leaves one response, which its cycle shows, and the next edge is a wait,
which keeps the buffer. -/
theorem responseStrobeLastsOneCycle : Obligations.ResponseStrobeLastsOneCycle := by
  intro p s t c hrst h
  obtain ⟨_, _, r, hr⟩ := issue_ports h
  refine ⟨r, hr, outs_answering hr, ?_⟩
  rw [clock_answering hrst]
  rfl

end Sys2Proof.Machine
